-- ==== Sys2Proof/Word.lean ====
section
/-! DEFINITION. The machine's one word type: every register, cell, address and operand is a u8 (R8, R18). -/

namespace Sys2Proof

/-- A `u8`: a register, a memory cell, an address or an operand (R8). -/
abbrev Byte := BitVec 8

/-- The number of memory cells (R7, R32). -/
abbrev memorySize : Nat := 256

end Sys2Proof
end

