-- ==== Sys2Proof/Machine/Flags.lean ====
section
/-! DEFINITION. FLAGS (R25), the flag logic (R92), the three ALU functions (R89 to R91) and the jump conditions (R100).
Operands are read as integers, the result is computed exactly, and it is narrowed at the end (R10, R96). -/

namespace Sys2Proof.Machine

/-- ZERO, bit 0 (R25). -/
def maskZ : Byte := 0x01
/-- NEGATIVE, bit 1 (R25). -/
def maskN : Byte := 0x02
/-- CARRY, bit 2 (R25). -/
def maskC : Byte := 0x04
/-- OVERFLOW, bit 3 (R25). -/
def maskV : Byte := 0x08

/-- `set FLAGS.X`, guarded: the bits of `mask` become 1 if `b` holds, and nothing changes otherwise (R11). -/
def flagSetIf (b : Bool) (mask flags : Byte) : Byte := if b then flags ||| mask else flags

/-- `FLAGS.X <- b`: the bits of `mask` become `b` (R87). -/
def flagPut (b : Bool) (mask flags : Byte) : Byte := if b then flags ||| mask else flags &&& ~~~mask

/-- Whether a flag is set. -/
def flagOn (mask flags : Byte) : Bool := flags &&& mask != 0#8

/-- `bit7(v)`, the sign bit of an 8-bit value (R9). -/
def bit7 (v : Byte) : Bool := v.getLsbD 7

/-- `v == 0`, the ZERO test of R92. -/
def isZero (v : Byte) : Bool := v == 0#8

/-- `x mod 256` of an integer (R10). -/
def mod256 (x : Int) : Byte := BitVec.ofInt 8 x

/-- The value of a byte as an integer in [0, 255] (R8). -/
abbrev intOf (v : Byte) : Int := (v.toNat : Int)

/-- What the ALU answers for ADD and SUB: the carry or borrow, the overflow and the narrowed result. -/
structure AluResult where
  carry : Bool
  overflow : Bool
  result : Byte
deriving DecidableEq, Repr

/-- R89: `alu_add`. The mask 0x80 leaves only bit 7 of `sum`, which is bit 7 of `sum mod 256` (R10). -/
def aluAdd (x y : Byte) : AluResult :=
  let sum := intOf x + intOf y
  { carry := decide (sum > 255)
    overflow := (x ^^^ mod256 sum) &&& (y ^^^ mod256 sum) &&& 0x80 != 0#8
    result := mod256 sum }

/-- R90: `alu_sub`. For a negative `diff`, bit 7 is bit 7 of `diff mod 256` (R10, the spec's G1 and G2). -/
def aluSub (x y : Byte) : AluResult :=
  let diff := intOf x - intOf y
  { carry := decide (diff < 0)
    overflow := (x ^^^ y) &&& (x ^^^ mod256 diff) &&& 0x80 != 0#8
    result := mod256 diff }

/-- FLAGS after ADD or SUB: cleared, then C and V set from the ALU, then Z and N ORed in from the new ACC (R92 to R94). -/
def arithFlags (r : AluResult) : Byte :=
  flagSetIf (bit7 r.result) maskN (flagSetIf (isZero r.result) maskZ
    (flagSetIf r.overflow maskV (flagSetIf r.carry maskC 0#8)))

/-- FLAGS after CMP (R91, R95): cleared, then Z, N and V from the exact difference of the two unsigned bytes; C stays 0. -/
def cmpFlags (x y : Byte) : Byte :=
  let result := intOf x - intOf y
  flagSetIf (decide (result < -128) || decide (result > 127)) maskV (flagSetIf (decide (result < 0)) maskN
    (flagSetIf (decide (result = 0)) maskZ 0#8))

/-- FLAGS after LOAD under P_LOAD_ZN = overwrite (R87): Z and N are functions of the new ACC, the rest is kept. -/
def loadFlagsOverwrite (v flags : Byte) : Byte := flagPut (bit7 v) maskN (flagPut (isZero v) maskZ flags)

/-- FLAGS after LOAD under P_LOAD_ZN = or_in (R87, the alternative reading). -/
def loadFlagsOrIn (v flags : Byte) : Byte := flagSetIf (bit7 v) maskN (flagSetIf (isZero v) maskZ flags)

/-- "JLT: NEGATIVE set." (R101) -/
def condLt (flags : Byte) : Bool := flagOn maskN flags
/-- "JGT: neither NEGATIVE nor ZERO set." (R102) -/
def condGt (flags : Byte) : Bool := !flagOn maskN flags && !flagOn maskZ flags
/-- "JLE: NEGATIVE or ZERO set." (R103) -/
def condLe (flags : Byte) : Bool := flagOn maskN flags || flagOn maskZ flags
/-- "JGE: NEGATIVE not set." (R104) -/
def condGe (flags : Byte) : Bool := !flagOn maskN flags
/-- "JEQ: ZERO set." (R105) -/
def condEq (flags : Byte) : Bool := flagOn maskZ flags
/-- "JNE: ZERO not set." (R106) -/
def condNe (flags : Byte) : Bool := !flagOn maskZ flags

end Sys2Proof.Machine
end

