-- ==== Sys2Proof/Machine/State.lean ====
section
/-! DEFINITION. The state of the engine, exactly the list of R17, and why a step can stop. -/

namespace Sys2Proof.Machine

/-- The 256 cells (R32) as (address, byte) pairs. Canonical form: addresses strictly rising and below 256, and no cell
that holds 0x00, which is what an unlisted cell reads as (R31: every cell is 0x00 after RESET). -/
abbrev Memory := List Host.Cell

/-- The canonical form of a list whose addresses must all be at least the given bound: each address raises the bound past
itself, is below 256, and holds a byte other than 0x00. -/
def memoryWfFrom : Nat → Memory → Bool
  | _, [] => true
  | lo, (a, v) :: rest => decide (lo ≤ a) && decide (a < memorySize) && decide (v ≠ 0#8) && memoryWfFrom (a + 1) rest

/-- The canonical form of memory. -/
def Memory.wf (m : Memory) : Bool := memoryWfFrom 0 m

/-- The run state RUN (R28). -/
inductive RunState where
  | running
  | halted
  | faulted (v : Byte)
deriving DecidableEq, Repr

/-- The state of the engine (R17). "No other state exists." -/
structure State where
  acc : Byte
  pc : Byte
  ir : Byte
  mar : Byte
  mbr : Byte
  flags : Byte
  mem : Memory
  run : RunState
deriving DecidableEq, Repr

/-- The machine's faults. There is none: UnknownOpcode, the only exception (R110), is taken as the next state that R109
describes, and no other event stops the machine. Nobody raises a fault. -/
inductive Fault where
deriving DecidableEq, Repr

/-- Why a step is refused. -/
inductive Refusal where
  /-- Raised only by an arm of `exec` whose instruction has no meaning yet; no arm is left in that case. Safe. -/
  | notModelled (mnemonic : String)
  /-- Raised by `step` when RUN is Halted: R84, "A stopped engine does not step." Safe: the host must not issue it (R126). -/
  | stepWhileHalted
  /-- Raised by `step` when RUN is Faulted(v): R84, as above. Safe. -/
  | stepWhileFaulted (v : Byte)
deriving DecidableEq, Repr

/-- The state after RESET (R31, R122), which is also the state at construction (R123). -/
def State.reset : State where
  acc := 0#8
  pc := 0#8
  ir := 0#8
  mar := 0#8
  mbr := 0#8
  flags := 0#8
  mem := []
  run := .running

end Sys2Proof.Machine
end

