-- ==== Sys2Proof/Machine/Ops.lean ====
section
/-! DEFINITION. The named operations over registers and memory; taking the one exception, and RESET, the only way back. -/

namespace Sys2Proof.Machine

/-- ACC <- v (R11). -/
def setAcc (v : Byte) (s : State) : State := { s with acc := v }
/-- PC <- v (R11). -/
def setPc (v : Byte) (s : State) : State := { s with pc := v }
/-- IR <- v (R11). -/
def setIr (v : Byte) (s : State) : State := { s with ir := v }
/-- MAR <- v (R11). -/
def setMar (v : Byte) (s : State) : State := { s with mar := v }
/-- MBR <- v (R11). -/
def setMbr (v : Byte) (s : State) : State := { s with mbr := v }
/-- FLAGS <- v (R11). -/
def setFlags (v : Byte) (s : State) : State := { s with flags := v }
/-- RUN <- r (R28). -/
def setRun (r : RunState) (s : State) : State := { s with run := r }
/-- Memory replaced as a whole, by STORE, LOAD_IMAGE or RESET (R36). -/
def setMem (m : Memory) (s : State) : State := { s with mem := m }

/-- The byte listed for an address; an unlisted cell reads 0x00 (R31). -/
def cellRead : Memory → Nat → Byte
  | [], _ => 0#8
  | (b, w) :: rest, a => if a = b then w else cellRead rest a

/-- The list with the byte at an address replaced, in canonical form: a zero byte removes the cell's entry. -/
def cellWrite : Memory → Nat → Byte → Memory
  | [], a, v => if v = 0#8 then [] else [(a, v)]
  | (b, w) :: rest, a, v =>
    if a < b then (if v = 0#8 then (b, w) :: rest else (a, v) :: (b, w) :: rest)
    else if a = b then (if v = 0#8 then rest else (a, v) :: rest)
    else (b, w) :: cellWrite rest a v

/-- `MemRead(a, 1)` (R34). -/
def memRead (m : Memory) (a : Byte) : Byte := cellRead m a.toNat

/-- `MemWrite(a, 1, v)` (R35). -/
def memWrite (m : Memory) (a v : Byte) : Memory := cellWrite m a.toNat v

/-- PC <- (PC + 1) mod 256 (R20). -/
def advancePc (s : State) : State := setPc (s.pc + 1#8) s

/-- Taking UnknownOpcode (R109): the fetch has happened, RUN <- Faulted(IR), and nothing else changes. No vector, no
saved pc, no mode (R113). -/
def takeUnknownOpcode (s : State) : State := setRun (.faulted s.ir) s

/-- RESET (R122), the only way out of Halted or Faulted (R114). Its result does not depend on the state before it. -/
def resetEngine (_ : State) : State := State.reset

end Sys2Proof.Machine
end

