-- ==== Sys2Proof/Machine/Operands.lean ====
section
/-! DEFINITION. The two operand forms: the direct data address and the absolute jump target (R51, R81). An instruction
acts on the state after the fetch, whose PC is the address of the operand byte. -/

namespace Sys2Proof.Machine

/-- The operand fetch of a data instruction (R81): MAR <- operand, PC <- PC + 1. MBR is not written (D5). -/
def operandToMar (addr : Byte) (s : State) : State := advancePc (setMar addr s)

/-- The data read of LOAD, ADD, SUB and CMP (R23, R36): MBR <- MEM[MAR]. -/
def dataToMbr (s : State) : State := setMbr (memRead s.mem s.mar) s

/-- Operand fetch and data read together. -/
def readOperand (addr : Byte) (s : State) : State := dataToMbr (operandToMar addr s)

/-- The data write of STORE (R36, R88): MEM[MAR] <- ACC. -/
def accToMem (s : State) : State := setMem (memWrite s.mem s.mar s.acc) s

/-- A jump (R97): taken, PC <- target; not taken, PC <- PC + 1. MAR and MBR are not written (D5). -/
def jumpIf (taken : Bool) (target : Byte) (s : State) : State :=
  if taken then setPc target s else advancePc s

end Sys2Proof.Machine
end

