-- ==== Sys2Proof/Syntax.lean ====
section
/-! DEFINITION. The instructions: one constructor for each row of spec/opcode_table.json, in the table's order (R50).
Each two-byte instruction carries its operand byte (R51); HALT carries nothing (R53). -/

namespace Sys2Proof

/-- The 14 instructions of the opcode map (R50). `addr` is a data address for LOAD, STORE, ADD, SUB and CMP, and a
jump target for the jumps. -/
inductive Instr where
  | load  (addr : Byte)
  | store (addr : Byte)
  | add   (addr : Byte)
  | sub   (addr : Byte)
  | jump  (addr : Byte)
  | jzero (addr : Byte)
  | halt
  | cmp   (addr : Byte)
  | jlt   (addr : Byte)
  | jgt   (addr : Byte)
  | jle   (addr : Byte)
  | jge   (addr : Byte)
  | jeq   (addr : Byte)
  | jne   (addr : Byte)
deriving DecidableEq, Repr

end Sys2Proof
end

