-- ==== Sys2Proof/Machine/Arithmetic.lean ====
section
/-! DEFINITION. ADD, SUB and CMP (42_arithmetic_compare.md). -/

namespace Sys2Proof.Machine

/-- ADD and SUB (R93, R94: "symmetric to ADD"): the ALU on the old ACC and MBR, then FLAGS and ACC. -/
def arith (alu : Byte → Byte → AluResult) (addr : Byte) (s : State) : State :=
  let r := readOperand addr s
  let out := alu r.acc r.mbr
  setAcc out.result (setFlags (arithFlags out) r)

/-- ADD addr (R93). -/
def execAdd (addr : Byte) (s : State) : Host.Outcome State Fault Refusal := .next (arith aluAdd addr s)

/-- SUB addr (R94). -/
def execSub (addr : Byte) (s : State) : Host.Outcome State Fault Refusal := .next (arith aluSub addr s)

/-- CMP addr (R95): only FLAGS among ACC and FLAGS. -/
def execCmp (addr : Byte) (s : State) : Host.Outcome State Fault Refusal :=
  let r := readOperand addr s
  .next (setFlags (cmpFlags r.acc r.mbr) r)

end Sys2Proof.Machine
end

