-- ==== Sys2Proof/Machine/Halt.lean ====
section
/-! DEFINITION. HALT (44_halt.md). -/

namespace Sys2Proof.Machine

/-- HALT (R108): RUN <- Halted, no change beyond the fetch otherwise (C7). -/
def execHalt (s : State) : Host.Outcome State Fault Refusal := .next (setRun .halted s)

end Sys2Proof.Machine
end

