-- ==== Sys2Proof/Machine/Jumps.lean ====
section
/-! DEFINITION. JUMP, JZERO and the six flag-tested jumps (43_jumps.md). -/

namespace Sys2Proof.Machine

/-- JUMP addr (R98). -/
def execJump (addr : Byte) (s : State) : Host.Outcome State Fault Refusal := .next (jumpIf true addr s)

/-- JZERO addr (R99): "Tests ACC directly, not FLAGS.ZERO." -/
def execJzero (addr : Byte) (s : State) : Host.Outcome State Fault Refusal := .next (jumpIf (isZero s.acc) addr s)

/-- JLT addr (R101). -/
def execJlt (addr : Byte) (s : State) : Host.Outcome State Fault Refusal := .next (jumpIf (condLt s.flags) addr s)

/-- JGT addr (R102). -/
def execJgt (addr : Byte) (s : State) : Host.Outcome State Fault Refusal := .next (jumpIf (condGt s.flags) addr s)

/-- JLE addr (R103). -/
def execJle (addr : Byte) (s : State) : Host.Outcome State Fault Refusal := .next (jumpIf (condLe s.flags) addr s)

/-- JGE addr (R104). -/
def execJge (addr : Byte) (s : State) : Host.Outcome State Fault Refusal := .next (jumpIf (condGe s.flags) addr s)

/-- JEQ addr (R105). -/
def execJeq (addr : Byte) (s : State) : Host.Outcome State Fault Refusal := .next (jumpIf (condEq s.flags) addr s)

/-- JNE addr (R106). -/
def execJne (addr : Byte) (s : State) : Host.Outcome State Fault Refusal := .next (jumpIf (condNe s.flags) addr s)

end Sys2Proof.Machine
end

