-- ==== Sys2Proof/Config.lean ====
section
/-! DEFINITION. The parameters the spec leaves open (R7): the values each may take. Which value the machine
takes is `Machine.decided` in Sys2Proof/Machine/Params.lean. The spec has no free value: "No value in the machine is
ever `any value`" (93_implementation_defined.md), so this file has no opaque constant. -/

namespace Sys2Proof.Config

/-- `P_LOAD_ZN`: how LOAD writes ZERO and NEGATIVE (R7, R87, D3). -/
inductive LoadZn where
  | overwrite  -- both bits become functions of the new ACC
  | orIn       -- a bit the new ACC sets is set, and a bit already set stays
deriving DecidableEq, Repr

/-- `P_STORE_MBR`: what STORE does to MBR (R7, R88, D4). -/
inductive StoreMbr where
  | unchanged  -- MBR keeps the opcode the fetch put there
  | acc        -- MBR <- ACC
deriving DecidableEq, Repr

/-- `P_ASM_FAIL_IMAGE`: memory after a failed assembly (R7, R73, D8). -/
inductive AsmFailImage where
  | noLaunch      -- no LOAD_IMAGE happens
  | partialImage  -- the zeroed memory with the bytes written before the failure
  | zero          -- all cells zero
deriving DecidableEq, Repr

/-- `P_LABELS`: label resolution in the assembler (R7, R74, D9). -/
inductive Labels where
  | none     -- a symbolic operand fails
  | twoPass  -- a label's address is the write cursor at its definition line
deriving DecidableEq, Repr

/-- One choice of all four parameters. -/
structure Params where
  loadZn : LoadZn
  storeMbr : StoreMbr
  asmFailImage : AsmFailImage
  labels : Labels
deriving DecidableEq, Repr

end Sys2Proof.Config
end

