-- ==== Sys2Proof/Machine/Params.lean ====
section
/-! DEFINITION. The values of the open parameters that the spec decides (R7, D3, D4, D8, D9). -/

namespace Sys2Proof.Machine

/-- The decided parameters (R7). The machine of `exec` and `step` is the one under these. -/
def decided : Config.Params where
  loadZn := .overwrite
  storeMbr := .unchanged
  asmFailImage := .noLaunch
  labels := .none

end Sys2Proof.Machine
end

