-- ==== Sys2Proof/Machine/LoadStore.lean ====
section
/-! DEFINITION. LOAD and STORE (41_load_store.md), each under every value of its parameter, and as the machine runs it. -/

namespace Sys2Proof.Machine

/-- FLAGS after LOAD of the byte `v` (R87). -/
def loadFlags (p : Config.LoadZn) (v flags : Byte) : Byte :=
  match p with
  | .overwrite => loadFlagsOverwrite v flags
  | .orIn => loadFlagsOrIn v flags

/-- LOAD (R87) under a value of P_LOAD_ZN. -/
def loadUnder (p : Config.LoadZn) (addr : Byte) (s : State) : State :=
  let r := readOperand addr s
  setFlags (loadFlags p r.mbr r.flags) (setAcc r.mbr r)

/-- MBR after the write of a STORE (R88, D4). -/
def storeMbr (p : Config.StoreMbr) (s : State) : State :=
  match p with
  | .unchanged => s
  | .acc => setMbr s.acc s

/-- STORE (R88) under a value of P_STORE_MBR. -/
def storeUnder (p : Config.StoreMbr) (addr : Byte) (s : State) : State :=
  storeMbr p (accToMem (operandToMar addr s))

/-- LOAD addr (R87), with the decided P_LOAD_ZN. -/
def execLoad (addr : Byte) (s : State) : Host.Outcome State Fault Refusal :=
  .next (loadUnder decided.loadZn addr s)

/-- STORE addr (R88), with the decided P_STORE_MBR. -/
def execStore (addr : Byte) (s : State) : Host.Outcome State Fault Refusal :=
  .next (storeUnder decided.storeMbr addr s)

end Sys2Proof.Machine
end

