-- ==== Sys2Proof/Machine/Dispatch.lean ====
section
/-! DEFINITION. The dispatch of R86: one arm for each instruction. `exec` is the execution phase, on the state that the
fetch of R80 left. -/

namespace Sys2Proof.Machine

def exec (i : Instr) (s : State) : Host.Outcome State Fault Refusal :=
  match i with
  | .load addr => Sys2Proof.Machine.execLoad addr s
  | .store addr => Sys2Proof.Machine.execStore addr s
  | .add addr => Sys2Proof.Machine.execAdd addr s
  | .sub addr => Sys2Proof.Machine.execSub addr s
  | .jump addr => Sys2Proof.Machine.execJump addr s
  | .jzero addr => Sys2Proof.Machine.execJzero addr s
  | .halt => Sys2Proof.Machine.execHalt s
  | .cmp addr => Sys2Proof.Machine.execCmp addr s
  | .jlt addr => Sys2Proof.Machine.execJlt addr s
  | .jgt addr => Sys2Proof.Machine.execJgt addr s
  | .jle addr => Sys2Proof.Machine.execJle addr s
  | .jge addr => Sys2Proof.Machine.execJge addr s
  | .jeq addr => Sys2Proof.Machine.execJeq addr s
  | .jne addr => Sys2Proof.Machine.execJne addr s

end Sys2Proof.Machine
end

