-- ==== Sys2Proof/WellFormed.lean ====
section
/-! DEFINITION. Well-formedness. An instruction term has nothing to violate (R53: every operand value 0 to 255 is legal,
and `Byte` holds no other), so the check with content is the one on byte strings: what is a complete encoding (R48, R49). -/

namespace Sys2Proof

/-- R53: "No operand value is reserved, and no operand makes an instruction illegal." -/
def wellFormed : Instr → Bool
  | .load _ => true
  | .store _ => true
  | .add _ => true
  | .sub _ => true
  | .jump _ => true
  | .jzero _ => true
  | .halt => true
  | .cmp _ => true
  | .jlt _ => true
  | .jgt _ => true
  | .jle _ => true
  | .jge _ => true
  | .jeq _ => true
  | .jne _ => true

/-- R49: the length of an instruction is a function of its opcode byte alone; `none` for an illegal byte. -/
def encodingLength (op : Byte) : Option Nat :=
  if op.toNat = 0x07 then some 1
  else if 0x01 ≤ op.toNat ∧ op.toNat ≤ 0x0E then some 2
  else none

/-- A byte string that is exactly one instruction: a legal opcode byte and as many bytes as R49 gives it. -/
def encodingWellFormed : List Byte → Bool
  | [] => false
  | op :: rest => encodingLength op == some (rest.length + 1)

end Sys2Proof
end

