-- ==== Sys2Proof/Decode.lean ====
section
/-! DEFINITION. The decoder (R48 to R56), total on any byte string and rejecting by name; after it the encoder, written
from the same opcode map, and the reading of a word numbered as spec/opcode_table.json numbers it. -/

namespace Sys2Proof

/-- Why a byte string is no instruction. -/
inductive DecodeError where
  /-- The opcode byte `v` is 0x00 or 0x0F to 0xFF (R55). -/
  | unknownOpcode (v : Byte)
  /-- A two-byte opcode with no byte after it. The engine never meets this: memory wraps, so a byte follows (R38). -/
  | missingOperand
  /-- No byte at all. The engine never meets this. -/
  | noBytes
deriving DecidableEq, Repr

/-- Format OP2 (R48): the operand is the byte after the opcode, as it stands (R51). -/
def decodeOp2 (mk : Byte → Instr) : List Byte → Except DecodeError (Instr × List Byte)
  | [] => .error .missingOperand
  | addr :: rest => .ok (mk addr, rest)

/-- The opcode map of R50, read from the opcode byte; the answer carries the bytes left over. -/
def decode : List Byte → Except DecodeError (Instr × List Byte)
  | [] => .error .noBytes
  | op :: rest =>
    match op.toNat with
    | 0x01 => decodeOp2 .load rest
    | 0x02 => decodeOp2 .store rest
    | 0x03 => decodeOp2 .add rest
    | 0x04 => decodeOp2 .sub rest
    | 0x05 => decodeOp2 .jump rest
    | 0x06 => decodeOp2 .jzero rest
    | 0x07 => .ok (.halt, rest)
    | 0x08 => decodeOp2 .cmp rest
    | 0x09 => decodeOp2 .jlt rest
    | 0x0A => decodeOp2 .jgt rest
    | 0x0B => decodeOp2 .jle rest
    | 0x0C => decodeOp2 .jge rest
    | 0x0D => decodeOp2 .jeq rest
    | 0x0E => decodeOp2 .jne rest
    | _ => .error (.unknownOpcode op)

/-- The bytes of an instruction in the order memory holds them: opcode, then operand (R48, R50). -/
def encode : Instr → List Byte
  | .load addr => [0x01, addr]
  | .store addr => [0x02, addr]
  | .add addr => [0x03, addr]
  | .sub addr => [0x04, addr]
  | .jump addr => [0x05, addr]
  | .jzero addr => [0x06, addr]
  | .halt => [0x07]
  | .cmp addr => [0x08, addr]
  | .jlt addr => [0x09, addr]
  | .jgt addr => [0x0A, addr]
  | .jle addr => [0x0B, addr]
  | .jge addr => [0x0C, addr]
  | .jeq addr => [0x0D, addr]
  | .jne addr => [0x0E, addr]

/-- The `n` bytes of `w`, the most significant first. -/
def wordBytes : Nat → Nat → List Byte
  | 0, _ => []
  | n + 1, w => BitVec.ofNat 8 (w / 256 ^ n) :: wordBytes n w

/-- The first two bytes (the longest instruction) of an instruction whose `nbits` bits are `w`, numbered as
spec/opcode_table.json numbers them: its `match` and `mask` "apply to byte0*256 + byte1, byte 0 at the opcode address",
so byte 0 holds the highest bits. Bytes the row gives no bits are 0. DEDUCED, notes/assumptions/1.md. -/
def tableBytes (nbits w : Nat) : List Byte :=
  (wordBytes ((nbits + 7) / 8) w ++ [0, 0]).take 2

/-- The instruction the decoder reads from an opcode-table word. -/
def decodeTableWord (nbits w : Nat) : Option Instr :=
  match decode (tableBytes nbits w) with
  | .ok (i, _) => some i
  | .error _ => none

end Sys2Proof
end

