-- ==== Sys2Proof/Machine/Fetch.lean ====
section
/-! DEFINITION. The fetch, the bytes the decoder sees, and the whole cycle of R79 around an execution phase. -/

namespace Sys2Proof.Machine

/-- The fetch (R80): "MAR ← PC; MBR ← memory[MAR]; IR ← MBR; PC ← PC + 1 (all mod 256)." -/
def fetch (s : State) : State :=
  let s := setMar s.pc s
  let s := setMbr (memRead s.mem s.mar) s
  let s := setIr s.mbr s
  advancePc s

/-- What the decoder reads after the fetch: IR, and the byte at PC, which a one-byte instruction and an illegal opcode
leave unread (R49, R53, R81, R82). Reading it changes nothing (R34). -/
def fetchedBytes (s : State) : List Byte := [s.ir, memRead s.mem s.pc]

/-- Decode and execution after the fetch (R82, R86): an IR that is no opcode takes UnknownOpcode. -/
def decodeAndRun (ex : Instr → State → Host.Outcome State Fault Refusal) (s : State) :
    Host.Outcome State Fault Refusal :=
  match decode (fetchedBytes s) with
  | .ok (i, _) => ex i s
  | .error _ => .next (takeUnknownOpcode s)

/-- One STEP (R79) with a given execution phase. A stopped engine does not step (R84). -/
def cycle (ex : Instr → State → Host.Outcome State Fault Refusal) (s : State) : Host.Outcome State Fault Refusal :=
  match s.run with
  | .running => decodeAndRun ex (fetch s)
  | .halted => .refused .stepWhileHalted
  | .faulted v => .refused (.stepWhileFaulted v)

/-- Bytes stored one after another from an address, wrapping at 255 (R38). -/
def placeBytes : Byte → List Byte → State → State
  | _, [], s => s
  | a, b :: rest, s => placeBytes (a + 1#8) rest (setMem (memWrite s.mem a b) s)

/-- The state with an opcode-table word stored at PC, and running, so that the next step runs it
(notes/assumptions/3.md). -/
def placeTableWord (nbits w : Nat) (s : State) : State :=
  setRun .running (placeBytes s.pc (tableBytes nbits w) s)

end Sys2Proof.Machine
end

