-- ==== Sys2Proof/Machine/Step.lean ====
section
/-! DEFINITION. One STEP of the engine (R79, R86). -/

namespace Sys2Proof.Machine

/-- One STEP (R79): the fetch, the decode of IR, the execution phase; refused on a stopped engine (R84). -/
def step (s : State) : Host.Outcome State Fault Refusal := cycle exec s

/-- `s` with an instruction, given as an opcode-table word, where `step` fetches next. -/
def State.withFetchWord (s : State) (nbits w : Nat) : State := placeTableWord nbits w s

end Sys2Proof.Machine
end

