-- ==== Sys2Proof/Machine/Pseudocode.lean ====
section
/-! DEFINITION. The spec's own pseudocode for a step (R86 with R87 to R108), transcribed line by line: operands are read
from memory at PC, arithmetic is on unbounded integers, and `^` and `&` act on their two's complement (R10). It shares
memory access with the model and nothing else: no decoder, no ALU, no flag operation. The model's `step` is claimed equal
to it. -/

namespace Sys2Proof.Machine

/-- `v mod 256` as a u8 (R10). -/
def pseudoMod256 (v : Int) : Byte := BitVec.ofNat 8 (v % 256).toNat

/-- MAR <- MemRead(PC, 1); PC <- (PC + 1) mod 256. -/
def pseudoOperand (s : State) : State :=
  { s with mar := memRead s.mem s.pc, pc := pseudoMod256 ((s.pc.toNat : Int) + 1) }

/-- MBR <- MemRead(MAR, 1). -/
def pseudoData (s : State) : State := { s with mbr := memRead s.mem s.mar }

/-- The value FLAGS has with the given Z, N, C and V and bits 4 to 7 zero (R25). -/
def pseudoFlags (z n c v : Prop) [Decidable z] [Decidable n] [Decidable c] [Decidable v] : Byte :=
  BitVec.ofNat 8 ((if z then 1 else 0) + (if n then 2 else 0) + (if c then 4 else 0) + (if v then 8 else 0))

/-- R87, under the decided overwrite: Z and N written, C and V and the rest kept. -/
def pseudoLoad (s : State) : State :=
  let s := pseudoData (pseudoOperand s)
  let s := { s with acc := s.mbr }
  { s with flags := BitVec.ofNat 8 (s.flags.toNat / 4 * 4
      + (if s.acc.toNat = 0 then 1 else 0) + (if 128 ≤ s.acc.toNat then 2 else 0)) }

/-- R88, under the decided unchanged. -/
def pseudoStore (s : State) : State :=
  let s := pseudoOperand s
  { s with mem := memWrite s.mem s.mar s.acc }

/-- R89, R93. -/
def pseudoAdd (s : State) : State :=
  let s := pseudoData (pseudoOperand s)
  let x : Int := s.acc.toNat
  let y : Int := s.mbr.toNat
  let sum := x + y
  let r := pseudoMod256 sum
  { s with
    acc := r
    flags := pseudoFlags (r = 0) (128 ≤ r.toNat) (sum > 255)
      (Int.land (Int.land (Int.xor x sum) (Int.xor y sum)) 0x80 ≠ 0) }

/-- R90, R94. -/
def pseudoSub (s : State) : State :=
  let s := pseudoData (pseudoOperand s)
  let x : Int := s.acc.toNat
  let y : Int := s.mbr.toNat
  let diff := x - y
  let r := pseudoMod256 diff
  { s with
    acc := r
    flags := pseudoFlags (r = 0) (128 ≤ r.toNat) (diff < 0)
      (Int.land (Int.land (Int.xor x y) (Int.xor x diff)) 0x80 ≠ 0) }

/-- R91, R95. -/
def pseudoCmp (s : State) : State :=
  let s := pseudoData (pseudoOperand s)
  let result : Int := (s.acc.toNat : Int) - (s.mbr.toNat : Int)
  { s with flags := pseudoFlags (result = 0) (result < 0) False (result < -128 ∨ result > 127) }

/-- R97: PC <- MemRead(PC, 1) if taken, PC <- (PC + 1) mod 256 if not. -/
def pseudoJump (taken : Prop) [Decidable taken] (s : State) : State :=
  if taken then { s with pc := memRead s.mem s.pc } else { s with pc := pseudoMod256 ((s.pc.toNat : Int) + 1) }

/-- FLAGS.Z == 1: bit 0 (R25). -/
abbrev pseudoZ (s : State) : Prop := s.flags.toNat % 2 = 1
/-- FLAGS.N == 1: bit 1 (R25). -/
abbrev pseudoN (s : State) : Prop := s.flags.toNat / 2 % 2 = 1

/-- The whole step for a Running engine (R86): the state it leaves, RUN included. -/
def pseudoStep (s : State) : State :=
  let s := { s with mar := s.pc }
  let s := { s with mbr := memRead s.mem s.mar }
  let s := { s with ir := s.mbr }
  let s := { s with pc := pseudoMod256 ((s.pc.toNat : Int) + 1) }
  if s.ir.toNat = 0x01 then pseudoLoad s
  else if s.ir.toNat = 0x02 then pseudoStore s
  else if s.ir.toNat = 0x03 then pseudoAdd s
  else if s.ir.toNat = 0x04 then pseudoSub s
  else if s.ir.toNat = 0x05 then pseudoJump True s
  else if s.ir.toNat = 0x06 then pseudoJump (s.acc.toNat = 0) s
  else if s.ir.toNat = 0x07 then { s with run := .halted }
  else if s.ir.toNat = 0x08 then pseudoCmp s
  else if s.ir.toNat = 0x09 then pseudoJump (pseudoN s) s
  else if s.ir.toNat = 0x0A then pseudoJump (¬ pseudoN s ∧ ¬ pseudoZ s) s
  else if s.ir.toNat = 0x0B then pseudoJump (pseudoN s ∨ pseudoZ s) s
  else if s.ir.toNat = 0x0C then pseudoJump (¬ pseudoN s) s
  else if s.ir.toNat = 0x0D then pseudoJump (pseudoZ s) s
  else if s.ir.toNat = 0x0E then pseudoJump (¬ pseudoZ s) s
  else { s with run := .faulted s.ir }

end Sys2Proof.Machine
end

