-- ==== Sys2Proof/Machine/Image.lean ====
section
/-! DEFINITION. The 256-byte image, LOAD_IMAGE (R125) and the memory part of OBSERVE (R127). -/

namespace Sys2Proof.Machine

/-- "a sequence of 256 `u8`" (R125). -/
structure Image where
  bytes : List Byte
  full : bytes.length = memorySize
deriving DecidableEq, Repr

/-- `image[a]`. -/
def imageAt (image : Image) (a : Byte) : Byte := image.bytes.getD a.toNat 0#8

/-- All 256 cells of a memory, from address 0 up. -/
def imageOf (m : Memory) : Image where
  bytes := (List.range memorySize).map fun a => cellRead m a
  full := by simp

/-- The canonical memory whose cells from address `a` on hold the given bytes. -/
def cellsFrom : Nat → List Byte → Memory
  | _, [] => []
  | a, b :: rest => if b = 0#8 then cellsFrom (a + 1) rest else (a, b) :: cellsFrom (a + 1) rest

/-- LOAD_IMAGE (R125): every cell from the image; no register and not RUN. -/
def loadImage (image : Image) (s : State) : State := setMem (cellsFrom 0 image.bytes) s

end Sys2Proof.Machine
end

