-- ==== Sys2Proof/Machine/Assembler.lean ====
section
/-! DEFINITION. The assembler (30_encoding.md R57 to R78): source text to a 256-byte image and a trace, or the first
error. A line is classified by the steps of R60 to R65 in their order, and then acts on the write cursor and memory. -/

namespace Sys2Proof.Machine

/-- Source text, a line of it, or a token. -/
abbrev Text := List Char

/-- The assembly errors (R72), each with the number of the offending line. -/
inductive AsmError where
  | invalidOrg (line : Nat)
  | invalidData (line : Nat)
  | unknownInstruction (name : Text) (line : Nat)
  | invalidOperand (line : Nat)
  /-- The spec's own: a byte to be written at address 256 or above (R70, D10). -/
  | cursorOverflow (line : Nat)
deriving DecidableEq, Repr

/-- What a line is (R60 to R65). -/
inductive Line where
  | blank
  | org (n : Option Int)
  | data (v : Int)
  | label (name : Text)
  | instr (mnemonic : Text) (operand : Option Text)
deriving DecidableEq, Repr

/-- The assembler's working record: the write cursor (R59), the memory being filled and the trace (R77). No state of the
engine (R29). -/
structure AsmState where
  cursor : Nat
  mem : Memory
  trace : List Text
deriving DecidableEq, Repr

/-- A failed assembly: the error, and memory as far as it was written (R73). -/
structure AsmFailure where
  error : AsmError
  written : Memory
deriving DecidableEq, Repr

/-- A successful assembly: the machine image of R57. -/
structure MachineImage where
  image : Image
  trace : List Text
deriving DecidableEq, Repr

/-- White space inside source text. DESIGN CHOICE, notes/assumptions/8.md. -/
def isSpace (c : Char) : Bool := c == ' ' || c == '\t' || c == '\r' || c == '\n' || c.toNat == 11 || c.toNat == 12

/-- R60: "trimmed of leading and trailing whitespace". -/
def trim (t : Text) : Text := ((t.dropWhile isSpace).reverse.dropWhile isSpace).reverse

/-- R58: "newline-delimited". Every physical line is listed, blank ones included. -/
def splitLines : Text → List Text
  | [] => [[]]
  | c :: rest =>
    if c = '\n' then [] :: splitLines rest
    else
      match splitLines rest with
      | [] => [[c]]
      | l :: ls => (c :: l) :: ls

/-- Everything before the first run of white space. -/
def firstToken (t : Text) : Text := t.takeWhile fun c => !isSpace c

/-- Everything after the first token, trimmed. -/
def afterToken (t : Text) : Text := trim (t.dropWhile fun c => !isSpace c)

/-- Case folding of keywords (R67), on the 26 ASCII letters. -/
def foldCase (t : Text) : Text := t.map Char.toUpper

/-- An ASCII digit (R69). -/
def isDigit (c : Char) : Bool := decide ('0'.toNat ≤ c.toNat) && decide (c.toNat ≤ '9'.toNat)

/-- The base-10 value of a run of digits, after the value read so far. -/
def digitsValue : Nat → Text → Nat
  | v, [] => v
  | v, c :: rest => digitsValue (10 * v + (c.toNat - '0'.toNat)) rest

/-- One or more ASCII digits and nothing else (R69). -/
def natural (t : Text) : Option Nat :=
  if t ≠ [] ∧ t.all isDigit = true then some (digitsValue 0 t) else none

/-- R69: a decimal integer matches `[+-]?[0-9]+` in full. -/
def decimal : Text → Option Int
  | [] => none
  | c :: rest =>
    if c = '+' then (natural rest).map fun n => (n : Int)
    else if c = '-' then (natural rest).map fun n => -(n : Int)
    else (natural (c :: rest)).map fun n => (n : Int)

/-- The byte of an integer in [0, 255]. -/
def byteOf (v : Int) : Option Byte := if 0 ≤ v ∧ v ≤ 255 then some (BitVec.ofInt 8 v) else none

/-- R60 to R65, in the order they are tried, on a trimmed line. -/
def classifyTrimmed (t : Text) : Line :=
  if t = [] ∨ t.head? = some ';' then .blank
  else if foldCase (firstToken t) = ".ORG".toList then .org (decimal (afterToken t))
  else
    match decimal t with
    | some v => .data v
    | none =>
      if t.getLast? = some ':' then .label (trim t.dropLast)
      else
        let code := trim (t.takeWhile fun c => c != ';')
        .instr (firstToken code) (if afterToken code = [] then none else some (afterToken code))

/-- What a physical line is. -/
def classify (t : Text) : Line := classifyTrimmed (trim t)

/-- R66: the five aliases and the mnemonics they stand for, in upper case. -/
def resolveAlias (name : Text) : Text :=
  if name = "HLT".toList then "HALT".toList
  else if name = "JZ".toList then "JZERO".toList
  else if name = "JMP".toList then "JUMP".toList
  else if name = "JE".toList then "JEQ".toList
  else if name = "JNZ".toList then "JNE".toList
  else name

/-- R50: the mapping from canonical mnemonic to opcode byte. -/
def opcodeMap : List (Text × Byte) :=
  [("LOAD".toList, 0x01), ("STORE".toList, 0x02), ("ADD".toList, 0x03), ("SUB".toList, 0x04), ("JUMP".toList, 0x05),
   ("JZERO".toList, 0x06), ("HALT".toList, 0x07), ("CMP".toList, 0x08), ("JLT".toList, 0x09), ("JGT".toList, 0x0A),
   ("JLE".toList, 0x0B), ("JGE".toList, 0x0C), ("JEQ".toList, 0x0D), ("JNE".toList, 0x0E)]

/-- R65 to R67: the opcode of a mnemonic or an alias, in any case. -/
def opcodeOf (name : Text) : Option Byte := opcodeMap.lookup (resolveAlias (foldCase name))

/-- HALT's opcode, whose line drops its operand token (R68, C13). -/
def opHalt : Byte := 0x07

/-- The upper-case hexadecimal digit of a number below 16. -/
def hexDigit (n : Nat) : Char := if n < 10 then Char.ofNat (48 + n) else Char.ofNat (55 + n)

/-- R77: "a two-hex-digit uppercase string". -/
def hexByte (b : Byte) : Text := [hexDigit (b.toNat / 16), hexDigit (b.toNat % 16)]

/-- A failure at this point of the assembly (R73). -/
def asmFail (e : AsmError) (st : AsmState) : Except AsmFailure AsmState :=
  .error { error := e, written := st.mem }

/-- One byte written at the cursor, appended to the trace, and the cursor moved on (R71, R77); past 255 it fails (R70). -/
def emit (line : Nat) (b : Byte) (st : AsmState) : Except AsmFailure AsmState :=
  if st.cursor < memorySize then
    .ok { cursor := st.cursor + 1, mem := cellWrite st.mem st.cursor b, trace := st.trace ++ [hexByte b] }
  else asmFail (.cursorOverflow line) st

/-- The value of an operand token: a decimal integer, or else a resolved label where labels are resolved (R68, R74). -/
def operandValue (labels : List (Text × Nat)) (token : Text) : Option Int :=
  match decimal token with
  | some v => some v
  | none => (labels.lookup token).map fun a => (a : Int)

/-- R68: the operand after an opcode byte that is already written. -/
def emitOperand (labels : List (Text × Nat)) (line : Nat) (token : Text) (st : AsmState) : Except AsmFailure AsmState :=
  match (operandValue labels token).bind byteOf with
  | none => asmFail (.invalidOperand line) st
  | some b => emit line b st

/-- What a line does (R61 to R68). -/
def assembleLine (labels : List (Text × Nat)) (line : Nat) (st : AsmState) : Line → Except AsmFailure AsmState
  | .blank => .ok st
  | .label _ => .ok st
  | .org n =>
    match n.bind byteOf with
    | none => asmFail (.invalidOrg line) st
    | some a => .ok { st with cursor := a.toNat }
  | .data v =>
    match byteOf v with
    | none => asmFail (.invalidData line) st
    | some b => emit line b st
  | .instr mnemonic operand =>
    match opcodeOf mnemonic with
    | none => asmFail (.unknownInstruction mnemonic line) st
    | some op =>
      match emit line op st with
      | .error e => .error e
      | .ok st' =>
        match operand with
        | none => .ok st'
        | some token => if op = opHalt then .ok st' else emitOperand labels line token st'

/-- R59, R72: the lines in order, from line number `n`, up to the first that fails. -/
def assembleLines (labels : List (Text × Nat)) : Nat → List Text → AsmState → Except AsmFailure AsmState
  | _, [], st => .ok st
  | n, l :: ls, st =>
    match assembleLine labels n st (classify l) with
    | .error e => .error e
    | .ok st' => assembleLines labels (n + 1) ls st'

/-- Where the cursor stands after a line, for the first pass of the two-pass reading (R74). DESIGN CHOICE,
notes/assumptions/9.md: the first pass never fails. At a line that the second pass fails it goes on: a bad `.org` and an
unknown mnemonic keep the cursor, a data line adds 1 whatever its value, a two-byte instruction with a token adds 2 whatever
the token, and the cursor may pass 256. So the error and the bytes written are always those of the second pass. -/
def cursorAfter (cursor : Nat) : Line → Nat
  | .blank => cursor
  | .label _ => cursor
  | .org n =>
    match n.bind byteOf with
    | none => cursor
    | some a => a.toNat
  | .data _ => cursor + 1
  | .instr mnemonic operand =>
    match opcodeOf mnemonic with
    | none => cursor
    | some op => if op = opHalt ∨ operand = none then cursor + 1 else cursor + 2

/-- The first pass of the two-pass reading (R74): each label with "the write cursor at its definition line". DESIGN
CHOICE where R74 says no more, notes/assumptions/9.md. -/
def collectLabels : Nat → List Text → List (Text × Nat)
  | _, [] => []
  | cursor, l :: ls =>
    match classify l with
    | .label name => (name, cursor) :: collectLabels cursor ls
    | other => collectLabels (cursorAfter cursor other) ls

/-- The labels the assembler resolves, by `P_LABELS` (R74). -/
def labelTable (p : Config.Labels) (lines : List Text) : List (Text × Nat) :=
  match p with
  | .none => []
  | .twoPass => collectLabels 0 lines

/-- R57, R59: the assembler starts with all cells 0, the cursor at 0 and an empty trace. -/
def asmStart : AsmState := { cursor := 0, mem := [], trace := [] }

/-- `assemble(source)` (R57) under a value of `P_LABELS`. -/
def assembleUnder (p : Config.Labels) (source : Text) : Except AsmFailure MachineImage :=
  match assembleLines (labelTable p (splitLines source)) 1 (splitLines source) asmStart with
  | .error e => .error e
  | .ok st => .ok { image := imageOf st.mem, trace := st.trace }

end Sys2Proof.Machine
end

