-- ==== Sys2Proof/Machine/Variants.lean ====
section
/-! DEFINITION. The machine under every value of its parameters P_LOAD_ZN and P_STORE_MBR (R7: "A model may take
P_LOAD_ZN and P_STORE_MBR as arguments"). Only LOAD and STORE depend on them. -/

namespace Sys2Proof.Machine

/-- The execution phase under given parameters. -/
def execUnder (p : Config.Params) (i : Instr) (s : State) : Host.Outcome State Fault Refusal :=
  match i with
  | .load addr => .next (loadUnder p.loadZn addr s)
  | .store addr => .next (storeUnder p.storeMbr addr s)
  | .add addr => execAdd addr s
  | .sub addr => execSub addr s
  | .jump addr => execJump addr s
  | .jzero addr => execJzero addr s
  | .halt => execHalt s
  | .cmp addr => execCmp addr s
  | .jlt addr => execJlt addr s
  | .jgt addr => execJgt addr s
  | .jle addr => execJle addr s
  | .jge addr => execJge addr s
  | .jeq addr => execJeq addr s
  | .jne addr => execJne addr s

/-- One STEP under given parameters. -/
def stepUnder (p : Config.Params) (s : State) : Host.Outcome State Fault Refusal := cycle (execUnder p) s

end Sys2Proof.Machine
end

