-- ==== Sys2Proof/Machine/HostPorts.lean ====
section
/-! DEFINITION. The host's side of the block (R6, R124 to R128): STATUS, the four transactions one after another,
launch, and assembly into the engine. -/

namespace Sys2Proof.Machine

/-- `ExecutionError {UnknownOpcode}` (R109). -/
inductive ExecutionError where
  | unknownOpcode (v : Byte)
deriving DecidableEq, Repr

/-- STATUS, the result of a step (R6, R83). -/
inductive Status where
  | continuing
  | halted
  | error (e : ExecutionError)
deriving DecidableEq, Repr

/-- The STATUS of the step that left the engine in this run state (R83, R108, R109). -/
def statusOf : RunState → Status
  | .running => .continuing
  | .halted => .halted
  | .faulted v => .error (.unknownOpcode v)

/-- What OBSERVE shows (R127): six registers and 256 bytes; "RUN is not part of the snapshot". -/
structure Snapshot where
  acc : Byte
  pc : Byte
  ir : Byte
  mar : Byte
  mbr : Byte
  flags : Byte
  memory : Image
deriving DecidableEq, Repr

/-- OBSERVE (R127). -/
def observe (s : State) : Snapshot where
  acc := s.acc
  pc := s.pc
  ir := s.ir
  mar := s.mar
  mbr := s.mbr
  flags := s.flags
  memory := imageOf s.mem

/-- The host's four transactions (R6). -/
inductive Transaction where
  | reset
  | step
  | loadImage (image : Image)
  | observe
deriving DecidableEq, Repr

/-- What a transaction gives back to the host (R126). -/
inductive Reply where
  | nothing
  | status (st : Status)
  | snapshot (sn : Snapshot)
deriving DecidableEq, Repr

/-- One transaction. STEP has one only while RUN = Running (R84, R126). -/
def transact (t : Transaction) (s : State) : Host.Outcome (State × Reply) Fault Refusal :=
  match t with
  | .reset => .next (resetEngine s, .nothing)
  | .step =>
    match step s with
    | .next s' => .next (s', .status (statusOf s'.run))
    | .fault r => .fault r
    | .refused r => .refused r
  | .loadImage image => .next (loadImage image s, .nothing)
  | .observe => .next (s, .snapshot (observe s))

/-- Transactions one after another (R43, R124), with the replies in order, up to the first that has no move. -/
def session : List Transaction → State → Host.Outcome (State × List Reply) Fault Refusal
  | [], s => .next (s, [])
  | t :: ts, s =>
    match transact t s with
    | .fault r => .fault r
    | .refused r => .refused r
    | .next (s', reply) =>
      match session ts s' with
      | .next (s'', replies) => .next (s'', reply :: replies)
      | .fault r => .fault r
      | .refused r => .refused r

/-- The launch of an image (R128): RESET, then LOAD_IMAGE. -/
def launch (image : Image) (s : State) : State := loadImage image (resetEngine s)

/-- `assemble(source)` with its side effect on the engine's memory (R57, R73, R125), under given parameters: an image is
loaded only after a success, and a failure leaves what `P_ASM_FAIL_IMAGE` says. -/
def assembleInto (p : Config.Params) (source : Text) (s : State) : State × Except AsmError (List Text) :=
  match assembleUnder p.labels source with
  | .ok out => (loadImage out.image s, .ok out.trace)
  | .error f =>
    match p.asmFailImage with
    | .noLaunch => (s, .error f.error)
    | .partialImage => (loadImage (imageOf f.written) s, .error f.error)
    | .zero => (setMem [] s, .error f.error)

/-- The decided assembler (R74). -/
def assemble (source : Text) : Except AsmFailure MachineImage := assembleUnder decided.labels source

end Sys2Proof.Machine
end

