-- ==== Sys2Proof/Safety.lean ====
section
/-! DEFINITION. What counts as a well-kept state and a safe run, in the terms the claims use. -/

namespace Sys2Proof.Machine

/-- Bits 4 to 7 of FLAGS are 0 (R25). -/
abbrev FlagsHighZero (s : State) : Prop := s.flags &&& 0xF0 = 0#8

/-- ZERO and NEGATIVE are not both set (R27, under the decided P_LOAD_ZN). -/
abbrev NotZeroAndNegative (s : State) : Prop := ¬ (flagOn maskZ s.flags = true ∧ flagOn maskN s.flags = true)

/-- A stopped engine still shows the fetch that stopped it: R108 after HALT, R109 after UnknownOpcode. -/
def stoppedCoherent (s : State) : Bool :=
  match s.run with
  | .running => true
  | .halted => s.ir == 0x07 && s.mbr == 0x07 && s.pc == s.mar + 1#8
  | .faulted v => s.ir == v && s.mbr == v && s.pc == s.mar + 1#8 && (encodingLength v).isNone

/-- The invariant of the machine. -/
abbrev EngineInv (s : State) : Prop :=
  Memory.wf s.mem = true ∧ FlagsHighZero s ∧ NotZeroAndNegative s ∧ stoppedCoherent s = true

/-- The states a host can bring the engine to: from construction, by transactions (R123, R124). -/
inductive Reachable : State → Prop where
  | construction : Reachable State.reset
  | transaction {s s' : State} {t : Transaction} {r : Reply} :
      Reachable s → transact t s = .next (s', r) → Reachable s'

/-- A stopped engine (R14): "stopped when its run state is Halted or Faulted". -/
abbrev Stopped (s : State) : Prop := s.run ≠ .running

/-- A safe run: `k` steps, none of which raises UnknownOpcode. -/
def safeRun : Nat → State → Bool
  | 0, _ => true
  | k + 1, s =>
    match step s with
    | .next s' => statusOf s'.run != .error (.unknownOpcode s'.ir) && safeRun k s'
    | .fault _ => false
    | .refused _ => false

end Sys2Proof.Machine
end

