-- ==== Sys2Proof/Certificates/Slice0/Obligations.lean ====
section
/-! DEFINITION. The statements for the provers. `Sys2Proof.Claims` holds the words they share; each `Obligations.<Name>`
is one statement. "After the fetch" means: on the state that the fetch of R80 left, which is what `exec` acts on. -/

namespace Sys2Proof.Claims

open Sys2Proof.Machine

/-- The byte at PC: the opcode byte of the next step. -/
abbrev opAt (s : State) : Byte := memRead s.mem s.pc

/-- The byte after it, at (PC + 1) mod 256: the operand of a two-byte instruction (R12, R38). -/
abbrev operandAt (s : State) : Byte := memRead s.mem (s.pc + 1#8)

/-- The data byte the operand addresses. -/
abbrev dataAt (s : State) : Byte := memRead s.mem (operandAt s)

/-- An opcode byte of R50, given by its range and not by the decoder. -/
abbrev Legal (op : Byte) : Prop := 0x01 ≤ op.toNat ∧ op.toNat ≤ 0x0E

/-- The opcodes of LOAD, STORE, ADD, SUB and CMP. -/
abbrev DataOp (op : Byte) : Prop := op = 0x01#8 ∨ op = 0x02#8 ∨ op = 0x03#8 ∨ op = 0x04#8 ∨ op = 0x08#8

/-- ZERO, NEGATIVE, CARRY and OVERFLOW by their bit numbers (R25). -/
abbrev Z (s : State) : Bool := s.flags.getLsbD 0
abbrev N (s : State) : Bool := s.flags.getLsbD 1
abbrev C (s : State) : Bool := s.flags.getLsbD 2
abbrev V (s : State) : Bool := s.flags.getLsbD 3

/-- Every byte of memory reads as before. -/
abbrev SameMemory (s t : State) : Prop := ∀ a, memRead t.mem a = memRead s.mem a

/-- A two-byte opcode at PC makes the step run its instruction, with the byte after it as operand, on the fetched state
(R49, R51, R81, R86). -/
def RunsAs (op : Byte) (mk : Byte → Instr) : Prop :=
  ∀ s, s.run = .running → opAt s = op → step s = exec (mk (operandAt s)) (fetch s)

/-- After the fetch the instruction completes, with the PC at the target if `taken` and past the operand otherwise, and
every other register, every flag, every byte of memory and RUN as before (R97). -/
def JumpsIff (mk : Byte → Instr) (taken : State → Prop) : Prop :=
  ∀ addr s, ∃ t, exec (mk addr) s = .next t ∧
    (taken s → t.pc = addr) ∧ (¬ taken s → t.pc = s.pc + 1#8) ∧
    t.acc = s.acc ∧ t.ir = s.ir ∧ t.mar = s.mar ∧ t.mbr = s.mbr ∧ t.flags = s.flags ∧ t.run = s.run ∧ SameMemory s t

/-- Whether the jump with this opcode is taken (R98 to R106), on FLAGS as it stands (the spec's decision D11, log entry
19); false for an opcode that is no jump. -/
def jumpTaken (op : Byte) (s : State) : Bool :=
  (op == 0x05#8) || (op == 0x06#8 && s.acc == 0#8) || (op == 0x09#8 && N s) || (op == 0x0A#8 && !N s && !Z s) ||
  (op == 0x0B#8 && (N s || Z s)) || (op == 0x0C#8 && !N s) || (op == 0x0D#8 && Z s) || (op == 0x0E#8 && !Z s)

/-- Two states that differ at most in FLAGS bits 2 to 7. -/
def SameButCarryOverflow (s t : State) : Prop :=
  s.acc = t.acc ∧ s.pc = t.pc ∧ s.ir = t.ir ∧ s.mar = t.mar ∧ s.mbr = t.mbr ∧ s.mem = t.mem ∧ s.run = t.run ∧
  Z s = Z t ∧ N s = N t

/-- `k` steps of the machine with given parameters, up to the first that does not answer a next state. -/
def runUnder (p : Config.Params) : Nat → State → Host.Outcome State Fault Refusal
  | 0, s => .next s
  | k + 1, s =>
    match stepUnder p s with
    | .next t => runUnder p k t
    | .fault r => .fault r
    | .refused r => .refused r

/-- A byte written in decimal, without leading zeros. -/
def byteText (b : Byte) : Text :=
  let digit := fun n => Char.ofNat (48 + n)
  if b.toNat < 10 then [digit b.toNat]
  else if b.toNat < 100 then [digit (b.toNat / 10), digit (b.toNat % 10)]
  else [digit (b.toNat / 100), digit (b.toNat / 10 % 10), digit (b.toNat % 10)]

/-- An instruction as one line of source text: mnemonic, a space, the operand in decimal (R76). -/
def sourceLine : Instr → Text
  | .load a => "LOAD ".toList ++ byteText a
  | .store a => "STORE ".toList ++ byteText a
  | .add a => "ADD ".toList ++ byteText a
  | .sub a => "SUB ".toList ++ byteText a
  | .jump a => "JUMP ".toList ++ byteText a
  | .jzero a => "JZERO ".toList ++ byteText a
  | .halt => "HALT".toList
  | .cmp a => "CMP ".toList ++ byteText a
  | .jlt a => "JLT ".toList ++ byteText a
  | .jgt a => "JGT ".toList ++ byteText a
  | .jle a => "JLE ".toList ++ byteText a
  | .jge a => "JGE ".toList ++ byteText a
  | .jeq a => "JEQ ".toList ++ byteText a
  | .jne a => "JNE ".toList ++ byteText a

end Sys2Proof.Claims

open Sys2Proof Sys2Proof.Machine Sys2Proof.Claims

/-! ## Reset, fetch and the step -/

/-- R122, R31 (RUN: the spec's decision D6): RESET, in any state, leaves every register and every cell 0 and RUN = Running, and replies nothing. -/
def Obligations.ResetLeavesAllZeroRunning : Prop :=
  ∀ s, ∃ t, transact .reset s = .next (t, .nothing) ∧
    t.acc = 0x00#8 ∧ t.pc = 0x00#8 ∧ t.ir = 0x00#8 ∧ t.mar = 0x00#8 ∧ t.mbr = 0x00#8 ∧ t.flags = 0x00#8 ∧
    (∀ a, memRead t.mem a = 0x00#8) ∧ t.run = .running ∧ t = State.reset

/-- R80: what the fetch writes, and that a step of a Running engine starts with it whatever the byte is: after the step IR
is that byte, and the step is the decode and execution of the fetched state. -/
def Obligations.FetchEffect : Prop :=
  ∀ s, (fetch s).mar = s.pc ∧ (fetch s).mbr = opAt s ∧ (fetch s).ir = opAt s ∧
    (fetch s).pc.toNat = (s.pc.toNat + 1) % 256 ∧
    (fetch s).acc = s.acc ∧ (fetch s).flags = s.flags ∧ (fetch s).run = s.run ∧ SameMemory s (fetch s) ∧
    (s.run = .running → step s = decodeAndRun exec (fetch s))

/-- R79, R82, R86: when the bytes at PC decode to a well-formed instruction, the step is `exec` of it on the fetched
state: PC past the opcode byte, MAR = the old PC, MBR = IR = the opcode byte, the rest as it was. -/
def Obligations.StepRunsTheDecodedInstruction : Prop :=
  ∀ s i rest, s.run = .running → decode [opAt s, operandAt s] = .ok (i, rest) → wellFormed i = true →
    step s = exec i { s with mar := s.pc, mbr := opAt s, ir := opAt s, pc := s.pc + 1#8 }

/-- R83: STEP of a Running engine always ends, with Halted exactly for 0x07, with Error(UnknownOpcode(v)) exactly when v is
the byte at PC and no opcode, and with Continuing otherwise: whatever the operand and the data. -/
def Obligations.StepStatusFollowsOpcode : Prop :=
  ∀ s, s.run = .running → ∃ t st, transact .step s = .next (t, .status st) ∧
    (st = .halted ↔ opAt s = 0x07#8) ∧
    (∀ v, st = .error (.unknownOpcode v) ↔ v = opAt s ∧ ¬ Legal (opAt s)) ∧
    (st = .continuing ↔ Legal (opAt s) ∧ opAt s ≠ 0x07#8)

/-- The spec's decision D6 (R28): RUN after a step is Halted exactly for 0x07, Faulted(v) exactly when v is the byte at PC
and no opcode, and Running otherwise. -/
def Obligations.RunAfterStep : Prop :=
  ∀ s, s.run = .running → ∃ t, step s = .next t ∧
    (t.run = .halted ↔ opAt s = 0x07#8) ∧ (∀ v, t.run = .faulted v ↔ v = opAt s ∧ ¬ Legal (opAt s)) ∧
    (t.run = .running ↔ Legal (opAt s) ∧ opAt s ≠ 0x07#8)

/-- R84, the spec's decision D6 (log entry 5): a stopped engine does not step, and RESET leaves the stopped state. -/
def Obligations.StoppedEngineRefusesStep : Prop :=
  ∀ s, (s.run = .halted → step s = .refused .stepWhileHalted) ∧
    (∀ v, s.run = .faulted v → step s = .refused (.stepWhileFaulted v)) ∧
    (Stopped s → ∀ t r, transact .step s ≠ .next (t, r)) ∧
    (∃ t, transact .reset s = .next (t, .nothing) ∧ t.run = .running)

/-- R109: a byte that is no opcode, anywhere, leaves exactly the fetch and the error as STATUS; RUN = Faulted(v) is the
spec's decision D6, and that this is a next state is log entry 2. -/
def Obligations.UnknownOpcodeEntry : Prop :=
  ∀ s, s.run = .running → ¬ Legal (opAt s) →
    ∃ t, step s = .next t ∧ transact .step s = .next (t, .status (.error (.unknownOpcode (opAt s)))) ∧
      t.run = .faulted (opAt s) ∧ t.mar = s.pc ∧ t.mbr = opAt s ∧ t.ir = opAt s ∧
      t.pc.toNat = (s.pc.toNat + 1) % 256 ∧ t.acc = s.acc ∧ t.flags = s.flags ∧ SameMemory s t

/-- R86 with R87 to R109: the step of a Running engine is the spec's pseudocode, which reads its operands from memory at
PC, computes on unbounded integers and shares neither decoder nor ALU with the model. It follows the spec's decisions D3
(log entry 6), D4 (7), D5 (10), D6 (2, 12), D11 (19: the flag-tested jumps read FLAGS as it stands) and D22 (11). -/
def Obligations.StepIsTheSpecsPseudocode : Prop :=
  ∀ s, s.run = .running → step s = .next (pseudoStep s)

/-! ## The instructions -/

/-- R87: LOAD, under P_LOAD_ZN = overwrite, the spec's decision D3 (log entry 6). -/
def Obligations.LoadResult : Prop :=
  RunsAs 0x01#8 .load ∧ ∀ addr s, ∃ t, exec (.load addr) s = .next t ∧
    t.mar = addr ∧ t.pc = s.pc + 1#8 ∧ t.mbr = memRead s.mem addr ∧ t.acc = memRead s.mem addr ∧
    Z t = decide ((memRead s.mem addr).toNat = 0) ∧ N t = decide (128 ≤ (memRead s.mem addr).toNat) ∧
    (∀ k, 2 ≤ k → t.flags.getLsbD k = s.flags.getLsbD k) ∧
    t.ir = s.ir ∧ t.run = s.run ∧ SameMemory s t

/-- R88: STORE, under P_STORE_MBR = unchanged, the spec's decision D4 (log entry 7). The cell stored to is the operand's and
no other. -/
def Obligations.StoreResult : Prop :=
  RunsAs 0x02#8 .store ∧ ∀ addr s, Memory.wf s.mem = true → ∃ t, exec (.store addr) s = .next t ∧
    memRead t.mem addr = s.acc ∧ (∀ a, a ≠ addr → memRead t.mem a = memRead s.mem a) ∧
    t.mar = addr ∧ t.pc = s.pc + 1#8 ∧
    t.acc = s.acc ∧ t.ir = s.ir ∧ t.mbr = s.mbr ∧ t.flags = s.flags ∧ t.run = s.run

/-- R93: ADD. C is the unsigned carry, V is "operands share a sign and result's sign bit differs" (R89), Z and N are those
of the new ACC, and bits 4 to 7 end as 0. -/
def Obligations.AddResult : Prop :=
  RunsAs 0x03#8 .add ∧ ∀ addr s, ∃ t, exec (.add addr) s = .next t ∧
    t.mar = addr ∧ t.pc = s.pc + 1#8 ∧ t.mbr = memRead s.mem addr ∧
    t.acc.toNat = (s.acc.toNat + (memRead s.mem addr).toNat) % 256 ∧
    Z t = decide (t.acc.toNat = 0) ∧ N t = t.acc.getLsbD 7 ∧
    C t = decide (s.acc.toNat + (memRead s.mem addr).toNat > 255) ∧
    V t = decide (s.acc.getLsbD 7 = (memRead s.mem addr).getLsbD 7 ∧ t.acc.getLsbD 7 ≠ s.acc.getLsbD 7) ∧
    (∀ k, 4 ≤ k → t.flags.getLsbD k = false) ∧
    t.ir = s.ir ∧ t.run = s.run ∧ SameMemory s t

/-- R94: SUB, whose steps the spec derives from "symmetric to ADD". C is the borrow, V the signed overflow (R90, D22). -/
def Obligations.SubResult : Prop :=
  RunsAs 0x04#8 .sub ∧ ∀ addr s, ∃ t, exec (.sub addr) s = .next t ∧
    t.mar = addr ∧ t.pc = s.pc + 1#8 ∧ t.mbr = memRead s.mem addr ∧
    (t.acc.toNat : Int) = ((s.acc.toNat : Int) - (memRead s.mem addr).toNat) % 256 ∧
    Z t = decide (t.acc.toNat = 0) ∧ N t = t.acc.getLsbD 7 ∧
    C t = decide (s.acc.toNat < (memRead s.mem addr).toNat) ∧
    V t = decide (s.acc.getLsbD 7 ≠ (memRead s.mem addr).getLsbD 7 ∧ t.acc.getLsbD 7 ≠ s.acc.getLsbD 7) ∧
    (∀ k, 4 ≤ k → t.flags.getLsbD k = false) ∧
    t.ir = s.ir ∧ t.run = s.run ∧ SameMemory s t

/-- R95: CMP. The flags of the exact difference of two unsigned bytes; ACC is kept, C is cleared. -/
def Obligations.CmpResult : Prop :=
  RunsAs 0x08#8 .cmp ∧ ∀ addr s, ∃ t, exec (.cmp addr) s = .next t ∧
    t.mar = addr ∧ t.pc = s.pc + 1#8 ∧ t.mbr = memRead s.mem addr ∧ t.acc = s.acc ∧
    Z t = decide (s.acc = memRead s.mem addr) ∧
    N t = decide (s.acc.toNat < (memRead s.mem addr).toNat) ∧
    C t = false ∧
    V t = decide ((s.acc.toNat : Int) - (memRead s.mem addr).toNat < -128 ∨
      (s.acc.toNat : Int) - (memRead s.mem addr).toNat > 127) ∧
    (∀ k, 4 ≤ k → t.flags.getLsbD k = false) ∧
    t.ir = s.ir ∧ t.run = s.run ∧ SameMemory s t

/-- R98: JUMP, taken always. That MAR and MBR are kept is the spec's decision D5. -/
def Obligations.JumpResult : Prop := RunsAs 0x05#8 .jump ∧ JumpsIff .jump fun _ => True

/-- R99: JZERO, taken exactly when ACC is 0, whatever FLAGS is. That MAR and MBR are kept is the spec's decision D5. -/
def Obligations.JzeroResult : Prop := RunsAs 0x06#8 .jzero ∧ JumpsIff .jzero fun s => s.acc.toNat = 0

/-- R101 to R106: the six flag-tested jumps, on bits N and Z as they stand (decision D11). That MAR and MBR are kept is the
spec's decision D5. -/
def Obligations.FlagJumpResults : Prop :=
  (RunsAs 0x09#8 .jlt ∧ JumpsIff .jlt fun s => N s = true) ∧
  (RunsAs 0x0A#8 .jgt ∧ JumpsIff .jgt fun s => N s = false ∧ Z s = false) ∧
  (RunsAs 0x0B#8 .jle ∧ JumpsIff .jle fun s => N s = true ∨ Z s = true) ∧
  (RunsAs 0x0C#8 .jge ∧ JumpsIff .jge fun s => N s = false) ∧
  (RunsAs 0x0D#8 .jeq ∧ JumpsIff .jeq fun s => Z s = true) ∧
  (RunsAs 0x0E#8 .jne ∧ JumpsIff .jne fun s => Z s = false)

/-- R108: HALT. Its execution writes RUN alone (that RUN is state is the spec's decision D6); the whole step leaves the fetch and STATUS Halted, whatever byte follows,
and no step follows it. -/
def Obligations.HaltResult : Prop :=
  (∀ s, ∃ t, exec .halt s = .next t ∧ t.run = .halted ∧ t.acc = s.acc ∧ t.pc = s.pc ∧ t.ir = s.ir ∧ t.mar = s.mar ∧
    t.mbr = s.mbr ∧ t.flags = s.flags ∧ SameMemory s t) ∧
  (∀ s, s.run = .running → opAt s = 0x07#8 → ∃ t, transact .step s = .next (t, .status .halted) ∧
    exec .halt (fetch s) = .next t ∧ t.run = .halted ∧ t.pc.toNat = (s.pc.toNat + 1) % 256 ∧ t.mar = s.pc ∧
    t.ir = 0x07#8 ∧ t.mbr = 0x07#8 ∧ t.acc = s.acc ∧ t.flags = s.flags ∧ SameMemory s t ∧
    ∃ r, step t = .refused r)

/-! ## The ALU -/

/-- R89: the model's addition is `alu_add` on unbounded integers, its V the formula with `^` and `&`, and V = 1 exactly
when the operands share a sign bit that the result does not have. -/
def Obligations.AluAddFollowsTheFormula : Prop :=
  ∀ x y : Byte, let sum : Int := (x.toNat : Int) + y.toNat
    (aluAdd x y).carry = decide (sum > 255) ∧
    (aluAdd x y).overflow = decide (Int.land (Int.land (Int.xor x.toNat sum) (Int.xor y.toNat sum)) 0x80 ≠ 0) ∧
    ((aluAdd x y).result.toNat : Int) = sum % 256 ∧
    ((aluAdd x y).overflow = true ↔
      x.getLsbD 7 = y.getLsbD 7 ∧ (aluAdd x y).result.getLsbD 7 ≠ x.getLsbD 7)

/-- R90: the model's subtraction is `alu_sub`, with `^` on a negative difference read in two's complement, which the spec
supplies from general knowledge (R10, G2, D22). -/
def Obligations.AluSubFollowsTheFormula : Prop :=
  ∀ x y : Byte, let diff : Int := (x.toNat : Int) - y.toNat
    (aluSub x y).carry = decide (diff < 0) ∧
    (aluSub x y).overflow = decide (Int.land (Int.land (Int.xor x.toNat y.toNat) (Int.xor x.toNat diff)) 0x80 ≠ 0) ∧
    ((aluSub x y).result.toNat : Int) = diff % 256 ∧
    ((aluSub x y).overflow = true ↔
      x.getLsbD 7 ≠ y.getLsbD 7 ∧ (aluSub x y).result.getLsbD 7 ≠ x.getLsbD 7) ∧
    ((aluSub x y).carry = true ↔ x.toNat < y.toNat)

/-- L1-2, R96: after ADD, ACC and C together are the unsigned sum, and V says exactly that the signed sum is outside
[-128, 127]. -/
def Obligations.AddServesUnsignedAndSigned : Prop :=
  ∀ addr s, ∃ t, exec (.add addr) s = .next t ∧
    t.acc.toNat + (if C t then 256 else 0) = s.acc.toNat + (memRead s.mem addr).toNat ∧
    (V t = true ↔ s.acc.toInt + (memRead s.mem addr).toInt < -128 ∨ s.acc.toInt + (memRead s.mem addr).toInt > 127) ∧
    (V t = false → t.acc.toInt = s.acc.toInt + (memRead s.mem addr).toInt)

/-- L1-3, R96: after SUB, ACC and the borrow together are the unsigned difference, and V says exactly that the signed
difference is outside [-128, 127]. -/
def Obligations.SubServesUnsignedAndSigned : Prop :=
  ∀ addr s, ∃ t, exec (.sub addr) s = .next t ∧
    (t.acc.toNat : Int) - (if C t then 256 else 0) = (s.acc.toNat : Int) - (memRead s.mem addr).toNat ∧
    (V t = true ↔ s.acc.toInt - (memRead s.mem addr).toInt < -128 ∨ s.acc.toInt - (memRead s.mem addr).toInt > 127) ∧
    (V t = false → t.acc.toInt = s.acc.toInt - (memRead s.mem addr).toInt)

/-- R100: after CMP of x with y the six jumps decide x < y, x > y, x <= y, x >= y, x == y and x != y, unsigned. -/
def Obligations.CmpThenJumpDecidesUnsignedOrder : Prop :=
  ∀ addr target s, ∃ t, exec (.cmp addr) s = .next t ∧
    let x := s.acc.toNat
    let y := (memRead s.mem addr).toNat
    let goes := fun (c : Prop) [Decidable c] => { t with pc := if c then target else t.pc + 1#8 }
    exec (.jlt target) t = .next (goes (x < y)) ∧ exec (.jgt target) t = .next (goes (x > y)) ∧
    exec (.jle target) t = .next (goes (x ≤ y)) ∧ exec (.jge target) t = .next (goes (x ≥ y)) ∧
    exec (.jeq target) t = .next (goes (x = y)) ∧ exec (.jne target) t = .next (goes (x ≠ y))

/-! ## What a whole step writes -/

/-- R20: PC after a step: past the opcode byte for HALT and an illegal byte, the operand byte for a taken jump, past the
operand for everything else; every increment wraps. When a jump is taken is `jumpTaken`, by R98 to R106, on FLAGS as it
stands (the spec's decision D11, log entry 19). -/
def Obligations.PcAfterStep : Prop :=
  ∀ s, s.run = .running → ∃ t, step s = .next t ∧
    t.pc.toNat =
      if opAt s = 0x07#8 ∨ ¬ Legal (opAt s) then (s.pc.toNat + 1) % 256
      else if jumpTaken (opAt s) s = true then (operandAt s).toNat
      else (s.pc.toNat + 2) % 256

/-- R21: IR is written by the fetch alone, with the byte at the old PC, whatever it is; no execution phase writes it, and
none reads it: with another IR it leaves the same state but for IR. -/
def Obligations.IrHoldsTheFetchedByte : Prop :=
  (∀ s, s.run = .running → ∃ t, step s = .next t ∧ t.ir = opAt s) ∧
  (∀ s i rest, decode [s.ir, memRead s.mem s.pc] = .ok (i, rest) → decodeAndRun exec s = exec i s) ∧
  (∀ i s ir, ∃ t, exec i s = .next t ∧ t.ir = s.ir ∧ exec i { s with ir := ir } = .next { t with ir := ir })

/-- R22 with the spec's decision D5: MAR after a step is the operand byte of a data instruction, the old PC otherwise. -/
def Obligations.MarAfterStep : Prop :=
  ∀ s, s.run = .running → ∃ t, step s = .next t ∧ t.mar = if DataOp (opAt s) then operandAt s else s.pc

/-- R23 with the spec's decisions D4 and D5: MBR after a step: the data byte of LOAD, ADD, SUB and CMP, the opcode byte otherwise (so 0x02 after STORE). -/
def Obligations.MbrAfterStep : Prop :=
  ∀ s, s.run = .running → ∃ t, step s = .next t ∧
    t.mbr = if DataOp (opAt s) ∧ opAt s ≠ 0x02#8 then dataAt s else opAt s

/-- R19: only LOAD, ADD and SUB write ACC. -/
def Obligations.OnlyLoadAddSubWriteAcc : Prop :=
  ∀ s t, step s = .next t → t.acc ≠ s.acc → opAt s = 0x01#8 ∨ opAt s = 0x03#8 ∨ opAt s = 0x04#8

/-- R26: a step changes FLAGS only if it runs LOAD, ADD, SUB or CMP; LOAD keeps C, V and the bits above; and every step
leaves bits 4 to 7 zero if they were. -/
def Obligations.FlagsWriters : Prop :=
  ∀ s t, step s = .next t →
    (t.flags ≠ s.flags → opAt s = 0x01#8 ∨ opAt s = 0x03#8 ∨ opAt s = 0x04#8 ∨ opAt s = 0x08#8) ∧
    (opAt s = 0x01#8 → ∀ k, 2 ≤ k → t.flags.getLsbD k = s.flags.getLsbD k) ∧
    (opAt s = 0x08#8 → C t = false) ∧
    (FlagsHighZero s → FlagsHighZero t)

/-- R35: a write of a cell changes that cell and no other; a step changes memory only if it runs STORE, and then in the
operand's cell, which holds ACC; of the host's other transactions only RESET and LOAD_IMAGE change it. -/
def Obligations.OnlyStoreWritesMemory : Prop :=
  (∀ m a v, Memory.wf m = true →
    memRead (memWrite m a v) a = v ∧ ∀ b, b ≠ a → memRead (memWrite m a v) b = memRead m b) ∧
  (∀ s t, step s = .next t → t.mem ≠ s.mem → opAt s = 0x02#8) ∧
  (∀ s t a, Memory.wf s.mem = true → step s = .next t → memRead t.mem a ≠ memRead s.mem a →
    a = operandAt s ∧ memRead t.mem a = s.acc) ∧
  (∀ tr s t r, transact tr s = .next (t, r) → t.mem ≠ s.mem →
    tr = .step ∨ tr = .reset ∨ ∃ image, tr = .loadImage image)

/-- R46: after a STORE, every fetch and every operand fetch from the stored cell, in any state with that memory, sees the
stored byte; the STORE's own opcode and operand cells are no exception. -/
def Obligations.StoreSeenByLaterFetch : Prop :=
  ∀ s t, Memory.wf s.mem = true → opAt s = 0x02#8 → step s = .next t →
    t.acc = s.acc ∧ memRead t.mem (operandAt s) = s.acc ∧
    ∀ u : State, u.mem = t.mem →
      (u.pc = operandAt s → (fetch u).ir = s.acc) ∧
      (u.pc + 1#8 = operandAt s → fetchedBytes (fetch u) = [memRead t.mem u.pc, s.acc])

/-- R98: a JUMP to its own address never ends: after any number of steps the engine is still Running at the same PC. That
MAR and MBR are kept is the spec's decision D5 (log entry 10). -/
def Obligations.JumpToItselfNeverEnds : Prop :=
  ∀ s k, s.run = .running → opAt s = 0x05#8 → operandAt s = s.pc →
    ∃ t : State, core.run k s = .next t ∧ t.run = .running ∧ t.pc = s.pc ∧ t.mem = s.mem ∧
      (0 < k → t.mar = s.pc ∧ t.ir = 0x05#8 ∧ t.mbr = 0x05#8)

/-! ## Encoding -/

/-- R50: the opcode map, row by row, for every operand: the opcode byte of each mnemonic, the bytes of each instruction,
and that the decoder reads them as it. -/
def Obligations.OpcodeMap : Prop :=
  ∀ a : Byte,
    (opcodeOf "LOAD".toList = some 0x01#8 ∧ encode (.load a) = [0x01#8, a] ∧
      decode [0x01#8, a] = .ok (.load a, [])) ∧
    (opcodeOf "STORE".toList = some 0x02#8 ∧ encode (.store a) = [0x02#8, a] ∧
      decode [0x02#8, a] = .ok (.store a, [])) ∧
    (opcodeOf "ADD".toList = some 0x03#8 ∧ encode (.add a) = [0x03#8, a] ∧
      decode [0x03#8, a] = .ok (.add a, [])) ∧
    (opcodeOf "SUB".toList = some 0x04#8 ∧ encode (.sub a) = [0x04#8, a] ∧
      decode [0x04#8, a] = .ok (.sub a, [])) ∧
    (opcodeOf "JUMP".toList = some 0x05#8 ∧ encode (.jump a) = [0x05#8, a] ∧
      decode [0x05#8, a] = .ok (.jump a, [])) ∧
    (opcodeOf "JZERO".toList = some 0x06#8 ∧ encode (.jzero a) = [0x06#8, a] ∧
      decode [0x06#8, a] = .ok (.jzero a, [])) ∧
    (opcodeOf "HALT".toList = some 0x07#8 ∧ encode .halt = [0x07#8] ∧ decode [0x07#8] = .ok (.halt, [])) ∧
    (opcodeOf "CMP".toList = some 0x08#8 ∧ encode (.cmp a) = [0x08#8, a] ∧
      decode [0x08#8, a] = .ok (.cmp a, [])) ∧
    (opcodeOf "JLT".toList = some 0x09#8 ∧ encode (.jlt a) = [0x09#8, a] ∧
      decode [0x09#8, a] = .ok (.jlt a, [])) ∧
    (opcodeOf "JGT".toList = some 0x0A#8 ∧ encode (.jgt a) = [0x0A#8, a] ∧
      decode [0x0A#8, a] = .ok (.jgt a, [])) ∧
    (opcodeOf "JLE".toList = some 0x0B#8 ∧ encode (.jle a) = [0x0B#8, a] ∧
      decode [0x0B#8, a] = .ok (.jle a, [])) ∧
    (opcodeOf "JGE".toList = some 0x0C#8 ∧ encode (.jge a) = [0x0C#8, a] ∧
      decode [0x0C#8, a] = .ok (.jge a, [])) ∧
    (opcodeOf "JEQ".toList = some 0x0D#8 ∧ encode (.jeq a) = [0x0D#8, a] ∧
      decode [0x0D#8, a] = .ok (.jeq a, [])) ∧
    (opcodeOf "JNE".toList = some 0x0E#8 ∧ encode (.jne a) = [0x0E#8, a] ∧
      decode [0x0E#8, a] = .ok (.jne a, []))

/-- R48, R50: decoding the encoding of any instruction, whatever bytes follow, gives it back and those bytes. -/
def Obligations.DecodeEncodeRoundTrip : Prop :=
  ∀ i rest, wellFormed i = true → decode (encode i ++ rest) = .ok (i, rest)

/-- R50, R54: each encoding has one meaning: what decodes to an instruction is its encoding and the rest. -/
def Obligations.EncodeDecodeRoundTrip : Prop :=
  ∀ bytes i rest, decode bytes = .ok (i, rest) → encode i ++ rest = bytes

/-- R55: the decoder answers UnknownOpcode(v) exactly for a first byte v of 0x00 or 0x0F to 0xFF, 242 values in all, and
executing one raises UnknownOpcode with that byte. -/
def Obligations.DecoderRefusesExactlyIllegalBytes : Prop :=
  (∀ bytes v, decode bytes = .error (.unknownOpcode v) ↔ ∃ rest, bytes = v :: rest ∧ (v.toNat = 0 ∨ 15 ≤ v.toNat)) ∧
  ((List.range 256).filter fun n => decide (n = 0 ∨ 15 ≤ n)).length = 242 ∧
  (∀ s, s.run = .running → ((opAt s).toNat = 0 ∨ 15 ≤ (opAt s).toNat) →
    ∃ t, transact .step s = .next (t, .status (.error (.unknownOpcode (opAt s)))))

/-- R48, R49: the byte strings that decode with nothing left over are exactly those whose length the opcode byte gives. -/
def Obligations.DecoderAcceptsExactlyCompleteEncodings : Prop :=
  ∀ bytes, (∃ i, decode bytes = .ok (i, [])) ↔ encodingWellFormed bytes = true

/-- R50: words of the opcode map, written out bit by bit, decode to the instructions they stand for. -/
def Obligations.WrittenOutWordsDecode : Prop :=
  decode [0b00000001#8, 0b00001010#8] = .ok (.load 10, []) ∧
  decode [0b00000010#8, 0b00001100#8] = .ok (.store 12, []) ∧
  decode [0b00000100#8, 0b00011111#8] = .ok (.sub 31, []) ∧
  decode [0b00001000#8, 0b11111111#8] = .ok (.cmp 255, []) ∧
  decode [0b00000110#8, 0b00010000#8] = .ok (.jzero 16, []) ∧
  decode [0b00001110#8, 0b10000000#8] = .ok (.jne 128, []) ∧
  decode [0b00000111#8, 0b10011001#8] = .ok (.halt, [0x99#8])

/-- Log entry 1 (DEDUCED): a word numbered as spec/opcode_table.json numbers it, opcode byte in bits 15 to 8 and operand in
bits 7 to 0, is read as the instruction with those two bytes, and HALT's 8 bits as HALT. -/
def Obligations.OpcodeTableWordsDecode : Prop :=
  (∀ i op addr, encode i = [op, addr] → decodeTableWord 16 (op.toNat * 256 + addr.toNat) = some i) ∧
  decodeTableWord 8 0x07 = some .halt

/-! ## Invariants -/

/-- R31: the reset state meets the machine's invariant. -/
def Obligations.ResetMeetsInvariant : Prop := EngineInv State.reset

/-- R18, R25, R27, R108, R109: every step keeps the invariant: memory in canonical form, bits 4 to 7 of FLAGS zero, Z and N
not both set, and a stopped engine still showing the fetch that stopped it. Z and N rest on the spec's decision D3 (log
entry 6), RUN on D6 (log entries 2 and 12). -/
def Obligations.StepKeepsInvariant : Prop := ∀ s t, EngineInv s → step s = .next t → EngineInv t

/-- R124: the invariant holds in every state the host can bring the engine to, by any transactions in any order. The start
is construction, which equals the reset state by the spec's decision D14 (R123, log entry 17); the invariant rests on D3 and
D6, and its survival of LOAD_IMAGE on D7. -/
def Obligations.ReachableStatesMeetInvariant : Prop := ∀ s, Reachable s → EngineInv s

/-- R27, C12: under P_LOAD_ZN = or_in, LOAD of a 0 byte with N set leaves Z and N both set, as soon as memory holds a 0
byte; under the decided overwrite no LOAD does. -/
def Obligations.OrInReachesZeroAndNegative : Prop :=
  (∀ addr s, memRead s.mem addr = 0x00#8 → N s = true →
    Z (loadUnder .orIn addr s) = true ∧ N (loadUnder .orIn addr s) = true) ∧
  (∀ addr s, ¬ (Z (loadUnder .overwrite addr s) = true ∧ N (loadUnder .overwrite addr s) = true))

/-! ## What no instruction reads, and the parameters -/

/-- R26: "No instruction reads C or V": two engines that differ at most in FLAGS bits 2 to 7 run alike for any number of
steps, and still differ in those bits only. -/
def Obligations.CarryAndOverflowNeverRead : Prop :=
  ∀ k s s' (t : State), SameButCarryOverflow s s' → core.run k s = .next t →
    ∃ t' : State, core.run k s' = .next t' ∧ SameButCarryOverflow t t'

/-- R21 to R24, D5: a step does not depend on the IR, MAR and MBR it starts with. -/
def Obligations.InternalRegistersNeverRead : Prop :=
  ∀ s ir mar mbr, s.run = .running → step { s with ir := ir, mar := mar, mbr := mbr } = step s

/-- D4: whichever value P_STORE_MBR has, runs of any length agree on everything but MBR. -/
def Obligations.StoreMbrChoiceShowsOnlyInMbr : Prop :=
  ∀ (p q : Config.Params) k s t, p.loadZn = q.loadZn → runUnder p k s = .next t →
    ∃ t', runUnder q k s = .next t' ∧ t' = { t with mbr := t'.mbr }

/-- R7: the machine of `step` is the machine under the decided parameters. -/
def Obligations.DecidedParametersGiveStep : Prop := ∀ s, stepUnder decided s = step s

/-- R87, D3: under either reading LOAD leaves the same ACC, MAR, MBR, PC, C, V, IR, RUN and memory; and Z (and N) is set
afterwards exactly if the loaded byte sets it, or, under or_in only, if it was set before. -/
def Obligations.LoadUnderEitherReading : Prop :=
  ∀ p addr s, let t := loadUnder p addr s
    t.acc = memRead s.mem addr ∧ t.mbr = memRead s.mem addr ∧ t.mar = addr ∧ t.pc = s.pc + 1#8 ∧
    t.ir = s.ir ∧ t.run = s.run ∧ t.mem = s.mem ∧ (∀ k, 2 ≤ k → t.flags.getLsbD k = s.flags.getLsbD k) ∧
    (Z t = true ↔ memRead s.mem addr = 0x00#8 ∨ (p = .orIn ∧ Z s = true)) ∧
    (N t = true ↔ (memRead s.mem addr).getLsbD 7 = true ∨ (p = .orIn ∧ N s = true))

/-! ## The host's transactions -/

/-- R125: LOAD_IMAGE puts every byte of the image into its cell, in any run state, and changes no register; that it keeps
RUN is the spec's decision D7. -/
def Obligations.LoadImageEffect : Prop :=
  ∀ image s, ∃ t, transact (.loadImage image) s = .next (t, .nothing) ∧
    (∀ a, memRead t.mem a = imageAt image a) ∧ Memory.wf t.mem = true ∧
    t.acc = s.acc ∧ t.pc = s.pc ∧ t.ir = s.ir ∧ t.mar = s.mar ∧ t.mbr = s.mbr ∧ t.flags = s.flags ∧ t.run = s.run

/-- R127: OBSERVE returns the six registers and all 256 cells as they stand, and changes no state; RUN is not in it: the
engine gives the same snapshot in every run state. -/
def Obligations.ObserveEffect : Prop :=
  ∀ s, ∃ sn, transact .observe s = .next (s, .snapshot sn) ∧
    sn.acc = s.acc ∧ sn.pc = s.pc ∧ sn.ir = s.ir ∧ sn.mar = s.mar ∧ sn.mbr = s.mbr ∧ sn.flags = s.flags ∧
    sn.memory.bytes.length = 256 ∧ (∀ a, imageAt sn.memory a = memRead s.mem a) ∧
    ∀ r, transact .observe { s with run := r } = .next ({ s with run := r }, .snapshot sn)

/-- R128: RESET and then LOAD_IMAGE, from any state, give the launch state, and the first STEP fetches address 0.
That LOAD_IMAGE keeps RUN is the spec's decision D7 (log entry 12). -/
def Obligations.LaunchState : Prop :=
  ∀ image s, session [.reset, .loadImage image] s = .next (launch image s, [.nothing, .nothing]) ∧
    (launch image s).acc = 0x00#8 ∧ (launch image s).pc = 0x00#8 ∧ (launch image s).ir = 0x00#8 ∧
    (launch image s).mar = 0x00#8 ∧ (launch image s).mbr = 0x00#8 ∧ (launch image s).flags = 0x00#8 ∧
    (launch image s).run = .running ∧ (∀ a, memRead (launch image s).mem a = imageAt image a) ∧
    ∀ t, step (launch image s) = .next t → t.ir = imageAt image 0x00#8

/-- R114, with the spec's decisions D6 and D7: no transactions but RESET bring a stopped engine out of its state: registers and RUN stay, and no STEP is among
the transactions that had a move. -/
def Obligations.StoppedOnlyLeftByReset : Prop :=
  ∀ ts s t replies, Stopped s → Transaction.reset ∉ ts → session ts s = .next (t, replies) →
    t = { s with mem := t.mem } ∧ Transaction.step ∉ ts

/-! ## The assembler -/

/-- L1-1: `.org a` and then a data line `d` give an image with d at address a, 0 everywhere else, and d alone in the
trace, for all bytes a and d. -/
def Obligations.DataBytePlacement : Prop :=
  ∀ a d : Byte, ∃ out, assemble (".org ".toList ++ byteText a ++ '\n' :: byteText d) = .ok out ∧
    out.trace = [hexByte d] ∧ ∀ b, imageAt out.image b = if b = a then d else 0x00#8

/-- R50, R65 to R68, R77, R128: the source line of any instruction assembles to its encoding at address 0, that encoding is
the trace, and after a launch of the image the first step runs that instruction. The assembler is the label-blind one, the
spec's decision D9 (log entry 9). -/
def Obligations.AssembledInstructionRuns : Prop :=
  ∀ i s, ∃ out, assemble (sourceLine i) = .ok out ∧ out.trace = (encode i).map hexByte ∧
    (∀ a, imageAt out.image a = (encode i).getD a.toNat 0x00#8) ∧
    step (launch out.image s) = exec i (fetch (launch out.image s))

/-- R72: "The first line that fails ends the pass. No later line is read.": source text after a failing part changes
neither the error nor the bytes written before it. The assembler is the label-blind one, the spec's decision D9 (log entry
9). -/
def Obligations.FirstErrorEndsAssembly : Prop :=
  ∀ source later f, assemble source = .error f → assemble (source ++ '\n' :: later) = .error f

/-- R77, R125: a cell of the image that is not 0 holds a byte that some line wrote: it is in the trace. -/
def Obligations.NonzeroCellsAreTraced : Prop :=
  ∀ source out a, assemble source = .ok out → imageAt out.image a ≠ 0x00#8 →
    hexByte (imageAt out.image a) ∈ out.trace

/-- R66, R67: an alias acts as its canonical mnemonic on every line, and letter case does not matter. -/
def Obligations.AliasesAndCase : Prop :=
  (∀ labels n st operand,
    assembleLine labels n st (.instr "HLT".toList operand) = assembleLine labels n st (.instr "HALT".toList operand) ∧
    assembleLine labels n st (.instr "JZ".toList operand) = assembleLine labels n st (.instr "JZERO".toList operand) ∧
    assembleLine labels n st (.instr "JMP".toList operand) = assembleLine labels n st (.instr "JUMP".toList operand) ∧
    assembleLine labels n st (.instr "JE".toList operand) = assembleLine labels n st (.instr "JEQ".toList operand) ∧
    assembleLine labels n st (.instr "JNZ".toList operand) = assembleLine labels n st (.instr "JNE".toList operand)) ∧
  (∀ name name', foldCase name = foldCase name' → opcodeOf name = opcodeOf name')

/-- R68: the operand rule of the label-blind assembler, for a line whose mnemonic is known and whose opcode byte fits:
HALT, or no token: one byte; a decimal token in range: two bytes (or the overflow of R70 at 256); any other token:
InvalidOperand, with the opcode byte written. Label-blind is the spec's decision D9 (log entry 9), the overflow D10 (log
entry 14). -/
def Obligations.OperandHandling : Prop :=
  ∀ n st name op, opcodeOf name = some op → st.cursor < 256 →
    let one : AsmState := ⟨st.cursor + 1, cellWrite st.mem st.cursor op, st.trace ++ [hexByte op]⟩
    (∀ operand, op = 0x07#8 ∨ operand = none → assembleLine [] n st (.instr name operand) = .ok one) ∧
    (∀ token v, op ≠ 0x07#8 → decimal token = some v → 0 ≤ v → v ≤ 255 → st.cursor < 255 →
      assembleLine [] n st (.instr name (some token)) =
        .ok ⟨st.cursor + 2, cellWrite one.mem (st.cursor + 1) (BitVec.ofInt 8 v),
          one.trace ++ [hexByte (BitVec.ofInt 8 v)]⟩) ∧
    (∀ token v, op ≠ 0x07#8 → decimal token = some v → 0 ≤ v → v ≤ 255 → st.cursor = 255 →
      assembleLine [] n st (.instr name (some token)) = .error ⟨.cursorOverflow n, one.mem⟩) ∧
    (∀ token, op ≠ 0x07#8 → (∀ v, decimal token = some v → v < 0 ∨ 255 < v) →
      assembleLine [] n st (.instr name (some token)) = .error ⟨.invalidOperand n, one.mem⟩)

/-- R57, R73, R125: a successful assembly fills memory with its image, whatever was there, and leaves registers and RUN; a
failed one loads nothing, or leaves the written bytes, or zeroes memory, as P_ASM_FAIL_IMAGE says (the spec's decision D8, log
entry 14). That RUN is kept is D7 (log entry 12). -/
def Obligations.AssemblyIntoMemory : Prop :=
  ∀ (p : Config.Params) source s,
    (∀ out, assembleUnder p.labels source = .ok out →
      ∃ m, assembleInto p source s = ({ s with mem := m }, .ok out.trace) ∧ ∀ a, memRead m a = imageAt out.image a) ∧
    (∀ f, assembleUnder p.labels source = .error f →
      ∃ m, assembleInto p source s = ({ s with mem := m }, .error f.error) ∧
        (p.asmFailImage = .noLaunch → m = s.mem) ∧
        (p.asmFailImage = .partialImage → ∀ a, memRead m a = memRead f.written a) ∧
        (p.asmFailImage = .zero → ∀ a, memRead m a = 0x00#8))
end

