-- ==== Sys2Proof/Laws/Decode.lean ====
section
/-! SUPPORT. The decoder, case by case: what a legal opcode byte gives, and that any other byte is refused by name. -/

namespace Sys2Proof

@[simp] theorem decodeOp2_nil (mk : Byte → Instr) : decodeOp2 mk [] = .error .missingOperand := rfl

@[simp] theorem decodeOp2_cons (mk : Byte → Instr) (a : Byte) (rest : List Byte) :
    decodeOp2 mk (a :: rest) = .ok (mk a, rest) := rfl

/-- A byte is one of the 14 opcodes or it is 0x00 or 0x0F to 0xFF (R50, R55). -/
theorem opcode_cases (op : Byte) :
    op = 0x01#8 ∨ op = 0x02#8 ∨ op = 0x03#8 ∨ op = 0x04#8 ∨ op = 0x05#8 ∨ op = 0x06#8 ∨ op = 0x07#8 ∨ op = 0x08#8 ∨
      op = 0x09#8 ∨ op = 0x0A#8 ∨ op = 0x0B#8 ∨ op = 0x0C#8 ∨ op = 0x0D#8 ∨ op = 0x0E#8 ∨
      (op.toNat = 0 ∨ 15 ≤ op.toNat) := by
  revert op; decide

/-- An illegal byte is refused by name, whatever follows it (R55). -/
theorem decode_illegal {op : Byte} (rest : List Byte) (h : op.toNat = 0 ∨ 15 ≤ op.toNat) :
    decode (op :: rest) = .error (.unknownOpcode op) := by
  simp only [decode]
  split <;> first | rfl | omega

end Sys2Proof
end

