-- ==== Sys2Proof/Laws/Flags.lean ====
section
/-! SUPPORT. FLAGS bit by bit: each flag operation says what it does to every bit. -/

namespace Sys2Proof.Machine

/-- A guarded set, bit by bit. -/
theorem flagSetIf_getLsbD (b : Bool) (mask flags : Byte) (k : Nat) :
    (flagSetIf b mask flags).getLsbD k = (flags.getLsbD k || (b && mask.getLsbD k)) := by
  cases b <;> simp [flagSetIf]

/-- A flag put, bit by bit. -/
theorem flagPut_getLsbD (b : Bool) (mask flags : Byte) (k : Nat) :
    (flagPut b mask flags).getLsbD k = if mask.getLsbD k then b else flags.getLsbD k := by
  have hlt : mask.getLsbD k = true → k < 8 := BitVec.lt_of_getLsbD
  have hlt' : flags.getLsbD k = true → k < 8 := BitVec.lt_of_getLsbD
  cases b <;> cases hm : mask.getLsbD k <;> simp_all [flagPut]

/-- Each mask is one bit (R25). -/
theorem maskZ_getLsbD (k : Nat) : maskZ.getLsbD k = decide (k = 0) := by
  rcases Nat.lt_or_ge k 8 with h | h
  · interval_cases k <;> rfl
  · rw [BitVec.getLsbD_of_ge _ _ h, eq_comm, decide_eq_false_iff_not]; omega
theorem maskN_getLsbD (k : Nat) : maskN.getLsbD k = decide (k = 1) := by
  rcases Nat.lt_or_ge k 8 with h | h
  · interval_cases k <;> rfl
  · rw [BitVec.getLsbD_of_ge _ _ h, eq_comm, decide_eq_false_iff_not]; omega
theorem maskC_getLsbD (k : Nat) : maskC.getLsbD k = decide (k = 2) := by
  rcases Nat.lt_or_ge k 8 with h | h
  · interval_cases k <;> rfl
  · rw [BitVec.getLsbD_of_ge _ _ h, eq_comm, decide_eq_false_iff_not]; omega
theorem maskV_getLsbD (k : Nat) : maskV.getLsbD k = decide (k = 3) := by
  rcases Nat.lt_or_ge k 8 with h | h
  · interval_cases k <;> rfl
  · rw [BitVec.getLsbD_of_ge _ _ h, eq_comm, decide_eq_false_iff_not]; omega

/-- A flag is on exactly when its bit is. -/
theorem flagOn_maskZ (flags : Byte) : flagOn maskZ flags = flags.getLsbD 0 := by revert flags; decide
theorem flagOn_maskN (flags : Byte) : flagOn maskN flags = flags.getLsbD 1 := by revert flags; decide

theorem mod256_toNat (x : Int) : ((mod256 x).toNat : Int) = x % 256 := by
  simp [mod256, BitVec.toNat_ofInt, Int.emod_nonneg]

theorem isZero_eq (v : Byte) : isZero v = decide (v.toNat = 0) := by revert v; decide

theorem bit7_eq (v : Byte) : bit7 v = decide (128 ≤ v.toNat) := by revert v; decide

/-- The narrowed results of the ALU are the wrapping sum and difference (R96). -/
theorem aluAdd_result (x y : Byte) : (aluAdd x y).result = x + y := by
  apply BitVec.eq_of_toNat_eq
  have h : ((mod256 (intOf x + intOf y)).toNat : Int) = ((x.toNat : Int) + y.toNat) % 256 := mod256_toNat _
  have hx := x.isLt
  have hy := y.isLt
  show (mod256 (intOf x + intOf y)).toNat = _
  rw [BitVec.toNat_add]
  omega

theorem aluSub_result (x y : Byte) : (aluSub x y).result = x - y := by
  apply BitVec.eq_of_toNat_eq
  have h : ((mod256 (intOf x - intOf y)).toNat : Int) = ((x.toNat : Int) - y.toNat) % 256 := mod256_toNat _
  have hx := x.isLt
  have hy := y.isLt
  show (mod256 (intOf x - intOf y)).toNat = _
  rw [BitVec.toNat_sub]
  omega

/-- FLAGS after ADD or SUB, bit by bit (R93, R94). -/
theorem arithFlags_getLsbD (r : AluResult) (k : Nat) :
    (arithFlags r).getLsbD k = ((decide (k = 2) && r.carry) || (decide (k = 3) && r.overflow) ||
      (decide (k = 0) && isZero r.result) || (decide (k = 1) && bit7 r.result)) := by
  simp [arithFlags, flagSetIf_getLsbD, maskZ_getLsbD, maskN_getLsbD, maskC_getLsbD, maskV_getLsbD, Bool.and_comm]

/-- FLAGS after CMP, bit by bit (R91). -/
theorem cmpFlags_getLsbD (x y : Byte) (k : Nat) :
    (cmpFlags x y).getLsbD k = ((decide (k = 0) && decide (intOf x - intOf y = 0)) ||
      (decide (k = 1) && decide (intOf x - intOf y < 0)) ||
      (decide (k = 3) && (decide (intOf x - intOf y < -128) || decide (intOf x - intOf y > 127)))) := by
  simp [cmpFlags, flagSetIf_getLsbD, maskZ_getLsbD, maskN_getLsbD, maskV_getLsbD, Bool.and_comm]

/-- FLAGS after LOAD, bit by bit, under either reading (R87). -/
theorem loadFlagsOverwrite_getLsbD (v flags : Byte) (k : Nat) :
    (loadFlagsOverwrite v flags).getLsbD k = if k = 1 then bit7 v else if k = 0 then isZero v else flags.getLsbD k := by
  simp [loadFlagsOverwrite, flagPut_getLsbD, maskZ_getLsbD, maskN_getLsbD]

theorem loadFlagsOrIn_getLsbD (v flags : Byte) (k : Nat) :
    (loadFlagsOrIn v flags).getLsbD k =
      (flags.getLsbD k || (isZero v && decide (k = 0)) || (bit7 v && decide (k = 1))) := by
  simp [loadFlagsOrIn, flagSetIf_getLsbD, maskZ_getLsbD, maskN_getLsbD]

end Sys2Proof.Machine
end

