-- ==== Sys2Proof/Laws/State.lean ====
section
/-! SUPPORT. One lemma per field per update of the state, so that no proof unfolds a record update. -/

namespace Sys2Proof.Machine

@[simp] theorem setAcc_acc (v : Byte) (s : State) : (setAcc v s).acc = v := rfl
@[simp] theorem setAcc_pc (v : Byte) (s : State) : (setAcc v s).pc = s.pc := rfl
@[simp] theorem setAcc_ir (v : Byte) (s : State) : (setAcc v s).ir = s.ir := rfl
@[simp] theorem setAcc_mar (v : Byte) (s : State) : (setAcc v s).mar = s.mar := rfl
@[simp] theorem setAcc_mbr (v : Byte) (s : State) : (setAcc v s).mbr = s.mbr := rfl
@[simp] theorem setAcc_flags (v : Byte) (s : State) : (setAcc v s).flags = s.flags := rfl
@[simp] theorem setAcc_mem (v : Byte) (s : State) : (setAcc v s).mem = s.mem := rfl
@[simp] theorem setAcc_run (v : Byte) (s : State) : (setAcc v s).run = s.run := rfl

@[simp] theorem setPc_acc (v : Byte) (s : State) : (setPc v s).acc = s.acc := rfl
@[simp] theorem setPc_pc (v : Byte) (s : State) : (setPc v s).pc = v := rfl
@[simp] theorem setPc_ir (v : Byte) (s : State) : (setPc v s).ir = s.ir := rfl
@[simp] theorem setPc_mar (v : Byte) (s : State) : (setPc v s).mar = s.mar := rfl
@[simp] theorem setPc_mbr (v : Byte) (s : State) : (setPc v s).mbr = s.mbr := rfl
@[simp] theorem setPc_flags (v : Byte) (s : State) : (setPc v s).flags = s.flags := rfl
@[simp] theorem setPc_mem (v : Byte) (s : State) : (setPc v s).mem = s.mem := rfl
@[simp] theorem setPc_run (v : Byte) (s : State) : (setPc v s).run = s.run := rfl

@[simp] theorem setIr_acc (v : Byte) (s : State) : (setIr v s).acc = s.acc := rfl
@[simp] theorem setIr_pc (v : Byte) (s : State) : (setIr v s).pc = s.pc := rfl
@[simp] theorem setIr_ir (v : Byte) (s : State) : (setIr v s).ir = v := rfl
@[simp] theorem setIr_mar (v : Byte) (s : State) : (setIr v s).mar = s.mar := rfl
@[simp] theorem setIr_mbr (v : Byte) (s : State) : (setIr v s).mbr = s.mbr := rfl
@[simp] theorem setIr_flags (v : Byte) (s : State) : (setIr v s).flags = s.flags := rfl
@[simp] theorem setIr_mem (v : Byte) (s : State) : (setIr v s).mem = s.mem := rfl
@[simp] theorem setIr_run (v : Byte) (s : State) : (setIr v s).run = s.run := rfl

@[simp] theorem setMar_acc (v : Byte) (s : State) : (setMar v s).acc = s.acc := rfl
@[simp] theorem setMar_pc (v : Byte) (s : State) : (setMar v s).pc = s.pc := rfl
@[simp] theorem setMar_ir (v : Byte) (s : State) : (setMar v s).ir = s.ir := rfl
@[simp] theorem setMar_mar (v : Byte) (s : State) : (setMar v s).mar = v := rfl
@[simp] theorem setMar_mbr (v : Byte) (s : State) : (setMar v s).mbr = s.mbr := rfl
@[simp] theorem setMar_flags (v : Byte) (s : State) : (setMar v s).flags = s.flags := rfl
@[simp] theorem setMar_mem (v : Byte) (s : State) : (setMar v s).mem = s.mem := rfl
@[simp] theorem setMar_run (v : Byte) (s : State) : (setMar v s).run = s.run := rfl

@[simp] theorem setMbr_acc (v : Byte) (s : State) : (setMbr v s).acc = s.acc := rfl
@[simp] theorem setMbr_pc (v : Byte) (s : State) : (setMbr v s).pc = s.pc := rfl
@[simp] theorem setMbr_ir (v : Byte) (s : State) : (setMbr v s).ir = s.ir := rfl
@[simp] theorem setMbr_mar (v : Byte) (s : State) : (setMbr v s).mar = s.mar := rfl
@[simp] theorem setMbr_mbr (v : Byte) (s : State) : (setMbr v s).mbr = v := rfl
@[simp] theorem setMbr_flags (v : Byte) (s : State) : (setMbr v s).flags = s.flags := rfl
@[simp] theorem setMbr_mem (v : Byte) (s : State) : (setMbr v s).mem = s.mem := rfl
@[simp] theorem setMbr_run (v : Byte) (s : State) : (setMbr v s).run = s.run := rfl

@[simp] theorem setFlags_acc (v : Byte) (s : State) : (setFlags v s).acc = s.acc := rfl
@[simp] theorem setFlags_pc (v : Byte) (s : State) : (setFlags v s).pc = s.pc := rfl
@[simp] theorem setFlags_ir (v : Byte) (s : State) : (setFlags v s).ir = s.ir := rfl
@[simp] theorem setFlags_mar (v : Byte) (s : State) : (setFlags v s).mar = s.mar := rfl
@[simp] theorem setFlags_mbr (v : Byte) (s : State) : (setFlags v s).mbr = s.mbr := rfl
@[simp] theorem setFlags_flags (v : Byte) (s : State) : (setFlags v s).flags = v := rfl
@[simp] theorem setFlags_mem (v : Byte) (s : State) : (setFlags v s).mem = s.mem := rfl
@[simp] theorem setFlags_run (v : Byte) (s : State) : (setFlags v s).run = s.run := rfl

@[simp] theorem setMem_acc (m : Memory) (s : State) : (setMem m s).acc = s.acc := rfl
@[simp] theorem setMem_pc (m : Memory) (s : State) : (setMem m s).pc = s.pc := rfl
@[simp] theorem setMem_ir (m : Memory) (s : State) : (setMem m s).ir = s.ir := rfl
@[simp] theorem setMem_mar (m : Memory) (s : State) : (setMem m s).mar = s.mar := rfl
@[simp] theorem setMem_mbr (m : Memory) (s : State) : (setMem m s).mbr = s.mbr := rfl
@[simp] theorem setMem_flags (m : Memory) (s : State) : (setMem m s).flags = s.flags := rfl
@[simp] theorem setMem_mem (m : Memory) (s : State) : (setMem m s).mem = m := rfl
@[simp] theorem setMem_run (m : Memory) (s : State) : (setMem m s).run = s.run := rfl

@[simp] theorem setRun_acc (r : RunState) (s : State) : (setRun r s).acc = s.acc := rfl
@[simp] theorem setRun_pc (r : RunState) (s : State) : (setRun r s).pc = s.pc := rfl
@[simp] theorem setRun_ir (r : RunState) (s : State) : (setRun r s).ir = s.ir := rfl
@[simp] theorem setRun_mar (r : RunState) (s : State) : (setRun r s).mar = s.mar := rfl
@[simp] theorem setRun_mbr (r : RunState) (s : State) : (setRun r s).mbr = s.mbr := rfl
@[simp] theorem setRun_flags (r : RunState) (s : State) : (setRun r s).flags = s.flags := rfl
@[simp] theorem setRun_mem (r : RunState) (s : State) : (setRun r s).mem = s.mem := rfl
@[simp] theorem setRun_run (r : RunState) (s : State) : (setRun r s).run = r := rfl

@[simp] theorem advancePc_acc (s : State) : (advancePc s).acc = s.acc := rfl
@[simp] theorem advancePc_pc (s : State) : (advancePc s).pc = s.pc + 1#8 := rfl
@[simp] theorem advancePc_ir (s : State) : (advancePc s).ir = s.ir := rfl
@[simp] theorem advancePc_mar (s : State) : (advancePc s).mar = s.mar := rfl
@[simp] theorem advancePc_mbr (s : State) : (advancePc s).mbr = s.mbr := rfl
@[simp] theorem advancePc_flags (s : State) : (advancePc s).flags = s.flags := rfl
@[simp] theorem advancePc_mem (s : State) : (advancePc s).mem = s.mem := rfl
@[simp] theorem advancePc_run (s : State) : (advancePc s).run = s.run := rfl

@[simp] theorem takeUnknownOpcode_acc (s : State) : (takeUnknownOpcode s).acc = s.acc := rfl
@[simp] theorem takeUnknownOpcode_pc (s : State) : (takeUnknownOpcode s).pc = s.pc := rfl
@[simp] theorem takeUnknownOpcode_ir (s : State) : (takeUnknownOpcode s).ir = s.ir := rfl
@[simp] theorem takeUnknownOpcode_mar (s : State) : (takeUnknownOpcode s).mar = s.mar := rfl
@[simp] theorem takeUnknownOpcode_mbr (s : State) : (takeUnknownOpcode s).mbr = s.mbr := rfl
@[simp] theorem takeUnknownOpcode_flags (s : State) : (takeUnknownOpcode s).flags = s.flags := rfl
@[simp] theorem takeUnknownOpcode_mem (s : State) : (takeUnknownOpcode s).mem = s.mem := rfl
@[simp] theorem takeUnknownOpcode_run (s : State) : (takeUnknownOpcode s).run = .faulted s.ir := rfl

@[simp] theorem State.reset_acc : State.reset.acc = 0#8 := rfl
@[simp] theorem State.reset_pc : State.reset.pc = 0#8 := rfl
@[simp] theorem State.reset_ir : State.reset.ir = 0#8 := rfl
@[simp] theorem State.reset_mar : State.reset.mar = 0#8 := rfl
@[simp] theorem State.reset_mbr : State.reset.mbr = 0#8 := rfl
@[simp] theorem State.reset_flags : State.reset.flags = 0#8 := rfl
@[simp] theorem State.reset_mem : State.reset.mem = [] := rfl
@[simp] theorem State.reset_run : State.reset.run = .running := rfl

@[simp] theorem resetEngine_eq (s : State) : resetEngine s = State.reset := rfl

/-- Two states are equal when all eight pieces are. -/
theorem State.ext_fields {s t : State} (hacc : s.acc = t.acc) (hpc : s.pc = t.pc) (hir : s.ir = t.ir) (hmar : s.mar = t.mar)
    (hmbr : s.mbr = t.mbr) (hflags : s.flags = t.flags) (hmem : s.mem = t.mem) (hrun : s.run = t.run) : s = t := by
  cases s; cases t; simp_all

end Sys2Proof.Machine
end

