-- ==== Sys2Proof/Laws/Memory.lean ====
section
/-! SUPPORT. Memory: a read after a write, the canonical form and that every memory operation keeps it, and images. -/

namespace Sys2Proof.Machine

@[simp] theorem cellRead_nil (a : Nat) : cellRead [] a = 0#8 := rfl

theorem cellRead_cons (a b : Nat) (w : Byte) (m : Memory) :
    cellRead ((b, w) :: m) a = if a = b then w else cellRead m a := rfl

@[simp] theorem memoryWfFrom_nil (lo : Nat) : memoryWfFrom lo [] = true := rfl

theorem memoryWfFrom_cons {lo a : Nat} {v : Byte} {m : Memory} :
    memoryWfFrom lo ((a, v) :: m) = true ↔ lo ≤ a ∧ a < 256 ∧ v ≠ 0#8 ∧ memoryWfFrom (a + 1) m = true := by
  simp [memoryWfFrom, memorySize, and_assoc]

/-- A lower bound may be lowered. -/
theorem memoryWfFrom_mono {m : Memory} {lo lo' : Nat} (hle : lo' ≤ lo) (hwf : memoryWfFrom lo m = true) :
    memoryWfFrom lo' m = true := by
  cases m with
  | nil => rfl
  | cons c m => obtain ⟨a, v⟩ := c; rw [memoryWfFrom_cons] at hwf ⊢; exact ⟨hle.trans hwf.1, hwf.2⟩

/-- Below its bound a canonical list has no entry. -/
theorem cellRead_below {m : Memory} {lo a : Nat} (hwf : memoryWfFrom lo m = true) (ha : a < lo) :
    cellRead m a = 0#8 := by
  induction m generalizing lo with
  | nil => rfl
  | cons c m ih =>
    obtain ⟨b, w⟩ := c
    rw [memoryWfFrom_cons] at hwf
    rw [cellRead_cons, if_neg (by omega), ih hwf.2.2.2 (by omega)]

/-- A write leaves every other address alone, in any list. -/
theorem cellRead_cellWrite_of_ne (m : Memory) {a c : Nat} (v : Byte) (hne : c ≠ a) :
    cellRead (cellWrite m a v) c = cellRead m c := by
  induction m with
  | nil => by_cases hv : v = 0#8 <;> simp [cellWrite, hv, cellRead_cons, hne]
  | cons e m ih =>
    obtain ⟨b, w⟩ := e
    unfold cellWrite
    by_cases hv : v = 0#8 <;> split_ifs <;> simp_all [cellRead_cons]

/-- A read of the written address gives the written byte. -/
theorem cellRead_cellWrite_same {m : Memory} {lo : Nat} (hwf : memoryWfFrom lo m = true) (a : Nat) (v : Byte) :
    cellRead (cellWrite m a v) a = v := by
  induction m generalizing lo with
  | nil => by_cases hv : v = 0#8 <;> simp [cellWrite, hv, cellRead_cons]
  | cons e m ih =>
    obtain ⟨b, w⟩ := e
    rw [memoryWfFrom_cons] at hwf
    have habove : ∀ c, c ≤ b → cellRead m c = 0#8 := fun c hc => cellRead_below hwf.2.2.2 (by omega)
    unfold cellWrite
    by_cases hv : v = 0#8 <;> split_ifs with hlt heq
    · rw [cellRead_cons, if_neg (by omega), habove a (by omega), hv]
    · rw [heq, habove b le_rfl, hv]
    · rw [cellRead_cons, if_neg heq, ih hwf.2.2.2]
    · rw [cellRead_cons, if_pos rfl]
    · rw [cellRead_cons, if_pos rfl]
    · rw [cellRead_cons, if_neg heq, ih hwf.2.2.2]

/-- A write keeps the canonical form. -/
theorem memoryWfFrom_cellWrite {m : Memory} {lo a : Nat} (v : Byte) (hwf : memoryWfFrom lo m = true)
    (hlo : lo ≤ a) (ha : a < 256) : memoryWfFrom lo (cellWrite m a v) = true := by
  induction m generalizing lo with
  | nil => by_cases hv : v = 0#8 <;> simp [cellWrite, hv, memoryWfFrom_cons, hlo, ha]
  | cons e m ih =>
    obtain ⟨b, w⟩ := e
    rw [memoryWfFrom_cons] at hwf
    obtain ⟨hb, hb', hw, hm⟩ := hwf
    unfold cellWrite
    by_cases hv : v = 0#8 <;> split_ifs with hlt heq
    · exact memoryWfFrom_cons.mpr ⟨hb, hb', hw, hm⟩
    · exact memoryWfFrom_mono (by omega) hm
    · exact memoryWfFrom_cons.mpr ⟨hb, hb', hw, ih hm (by omega)⟩
    · exact memoryWfFrom_cons.mpr ⟨hlo, ha, hv, memoryWfFrom_cons.mpr ⟨by omega, hb', hw, hm⟩⟩
    · exact memoryWfFrom_cons.mpr ⟨hlo, ha, hv, heq ▸ hm⟩
    · exact memoryWfFrom_cons.mpr ⟨hb, hb', hw, ih hm (by omega)⟩

/-- Two canonical lists that read alike are equal. -/
theorem eq_of_cellRead_eq {m m' : Memory} {lo : Nat} (hm : memoryWfFrom lo m = true) (hm' : memoryWfFrom lo m' = true)
    (hread : ∀ a, cellRead m a = cellRead m' a) : m = m' := by
  induction m generalizing lo m' with
  | nil =>
    cases m' with
    | nil => rfl
    | cons e m' =>
      obtain ⟨b, w⟩ := e
      rw [memoryWfFrom_cons] at hm'
      have hb := hread b
      rw [cellRead_cons, if_pos rfl] at hb
      exact absurd hb.symm hm'.2.2.1
  | cons e m ih =>
    obtain ⟨b, w⟩ := e
    rw [memoryWfFrom_cons] at hm
    cases m' with
    | nil =>
      have hb := hread b
      rw [cellRead_cons, if_pos rfl] at hb
      exact absurd hb hm.2.2.1
    | cons e' m' =>
      obtain ⟨b', w'⟩ := e'
      rw [memoryWfFrom_cons] at hm'
      have hbb : b = b' := by
        rcases lt_trichotomy b b' with h | h | h
        · have hb := hread b
          rw [cellRead_cons, if_pos rfl, cellRead_cons, if_neg (by omega), cellRead_below hm'.2.2.2 (by omega)] at hb
          exact absurd hb hm.2.2.1
        · exact h
        · have hb := hread b'
          rw [cellRead_cons, if_neg (by omega), cellRead_cons, if_pos rfl, cellRead_below hm.2.2.2 (by omega)] at hb
          exact absurd hb.symm hm'.2.2.1
      subst hbb
      have hw : w = w' := by simpa [cellRead_cons] using hread b
      subst hw
      have htail : m = m' := by
        refine ih hm.2.2.2 hm'.2.2.2 fun a => ?_
        by_cases hab : a = b
        · rw [cellRead_below hm.2.2.2 (by omega), cellRead_below hm'.2.2.2 (by omega)]
        · simpa [cellRead_cons, hab] using hread a
      rw [htail]

/-! The same on machine addresses. -/

theorem memRead_memWrite_of_ne (m : Memory) {a c : Byte} (v : Byte) (hne : c ≠ a) :
    memRead (memWrite m a v) c = memRead m c :=
  cellRead_cellWrite_of_ne m v fun h => hne (BitVec.eq_of_toNat_eq h)

theorem memRead_memWrite_same {m : Memory} (hwf : Memory.wf m = true) (a v : Byte) :
    memRead (memWrite m a v) a = v :=
  cellRead_cellWrite_same hwf a.toNat v

theorem memWrite_wf {m : Memory} (hwf : Memory.wf m = true) (a v : Byte) : Memory.wf (memWrite m a v) = true :=
  memoryWfFrom_cellWrite v hwf (Nat.zero_le _) a.isLt

@[simp] theorem memRead_nil (a : Byte) : memRead [] a = 0#8 := rfl

@[simp] theorem wf_nil : Memory.wf [] = true := rfl

/-- Past address 255 a canonical list has no entry. -/
theorem cellRead_beyond {m : Memory} {lo a : Nat} (hwf : memoryWfFrom lo m = true) (ha : 256 ≤ a) :
    cellRead m a = 0#8 := by
  induction m generalizing lo with
  | nil => rfl
  | cons e m ih =>
    obtain ⟨b, w⟩ := e
    rw [memoryWfFrom_cons] at hwf
    rw [cellRead_cons, if_neg (by omega), ih hwf.2.2.2]

/-- Canonical memories are equal as soon as their 256 cells are. -/
theorem eq_of_memRead_eq {m m' : Memory} (hm : Memory.wf m = true) (hm' : Memory.wf m' = true)
    (hread : ∀ a, memRead m a = memRead m' a) : m = m' := by
  refine eq_of_cellRead_eq hm hm' fun a => ?_
  by_cases ha : a < 256
  · simpa [memRead, Nat.mod_eq_of_lt ha] using hread (BitVec.ofNat 8 a)
  · rw [cellRead_beyond hm (by omega), cellRead_beyond hm' (by omega)]

/-! Images (R125, R127). -/

theorem cellsFrom_wfFrom (bytes : List Byte) {a : Nat} (hlen : a + bytes.length ≤ 256) :
    memoryWfFrom a (cellsFrom a bytes) = true := by
  induction bytes generalizing a with
  | nil => rfl
  | cons b rest ih =>
    rw [List.length_cons] at hlen
    have hrest := ih (a := a + 1) (by omega)
    unfold cellsFrom
    split_ifs with hb
    · exact memoryWfFrom_mono (Nat.le_succ a) hrest
    · exact memoryWfFrom_cons.mpr ⟨le_rfl, by omega, hb, hrest⟩

theorem cellRead_cellsFrom (bytes : List Byte) {a n : Nat} (hlen : a + bytes.length ≤ 256) :
    cellRead (cellsFrom a bytes) n = if n < a then 0#8 else bytes.getD (n - a) 0#8 := by
  induction bytes generalizing a with
  | nil => simp [cellsFrom]
  | cons b rest ih =>
    rw [List.length_cons] at hlen
    have hrest := ih (a := a + 1) (by omega)
    have hhead : cellRead (cellsFrom a (b :: rest)) n = if n = a then b else cellRead (cellsFrom (a + 1) rest) n := by
      simp only [cellsFrom]
      by_cases hb : b = 0#8 <;> simp only [hb, if_true, if_false, cellRead_cons]
      by_cases hn : n = a
      · rw [if_pos hn, hn, cellRead_below (cellsFrom_wfFrom rest (by omega)) (Nat.lt_succ_self a)]
      · rw [if_neg hn]
    rw [hhead, hrest]
    rcases lt_trichotomy n a with h | h | h
    · rw [if_neg (by omega), if_pos (by omega), if_pos h]
    · subst h; simp
    · rw [if_neg (by omega), if_neg (by omega), if_neg (by omega), show n - a = (n - (a + 1)) + 1 by omega,
        List.getD_cons_succ]

theorem cellsOf_wf (image : Image) : Memory.wf (cellsFrom 0 image.bytes) = true :=
  cellsFrom_wfFrom image.bytes (by simpa [memorySize] using image.full.le)

theorem memRead_cellsOf (image : Image) (a : Byte) : memRead (cellsFrom 0 image.bytes) a = imageAt image a := by
  simpa [memRead, imageAt] using cellRead_cellsFrom (n := a.toNat) image.bytes
    (by simpa [memorySize] using image.full.le : 0 + image.bytes.length ≤ 256)

theorem imageAt_imageOf (m : Memory) (a : Byte) : imageAt (imageOf m) a = memRead m a := by
  simp [imageAt, imageOf, memRead, memorySize, a.isLt]

theorem placeBytes_wf {bytes : List Byte} {a : Byte} {s : State} (hwf : Memory.wf s.mem = true) :
    Memory.wf (placeBytes a bytes s).mem = true := by
  induction bytes generalizing a s with
  | nil => exact hwf
  | cons b rest ih => exact ih (memWrite_wf hwf a b)

theorem placeTableWord_wf {nbits w : Nat} {s : State} (hwf : Memory.wf s.mem = true) :
    Memory.wf (placeTableWord nbits w s).mem = true :=
  placeBytes_wf hwf

end Sys2Proof.Machine
end

