-- ==== Sys2Proof/Laws/Ops.lean ====
section
/-! SUPPORT. What each shared operation does, once: the operand forms, the fetch, and the cases of a step. -/

namespace Sys2Proof.Machine

/-- The fetch (R80), field by field. -/
theorem fetch_eq (s : State) :
    fetch s = { s with mar := s.pc, mbr := memRead s.mem s.pc, ir := memRead s.mem s.pc, pc := s.pc + 1#8 } := rfl

@[simp] theorem fetch_acc (s : State) : (fetch s).acc = s.acc := rfl
@[simp] theorem fetch_pc (s : State) : (fetch s).pc = s.pc + 1#8 := rfl
@[simp] theorem fetch_ir (s : State) : (fetch s).ir = memRead s.mem s.pc := rfl
@[simp] theorem fetch_mar (s : State) : (fetch s).mar = s.pc := rfl
@[simp] theorem fetch_mbr (s : State) : (fetch s).mbr = memRead s.mem s.pc := rfl
@[simp] theorem fetch_flags (s : State) : (fetch s).flags = s.flags := rfl
@[simp] theorem fetch_mem (s : State) : (fetch s).mem = s.mem := rfl
@[simp] theorem fetch_run (s : State) : (fetch s).run = s.run := rfl

/-- The operand fetch and the data read (R81, R87): MAR, MBR and PC, and nothing else. -/
theorem readOperand_eq (addr : Byte) (s : State) :
    readOperand addr s = { s with mar := addr, pc := s.pc + 1#8, mbr := memRead s.mem addr } := rfl

/-- The operand fetch of STORE (R81, R88). -/
theorem operandToMar_eq (addr : Byte) (s : State) : operandToMar addr s = { s with mar := addr, pc := s.pc + 1#8 } := rfl

/-- A jump writes PC and nothing else (R97). -/
theorem jumpIf_eq (taken : Bool) (addr : Byte) (s : State) :
    jumpIf taken addr s = { s with pc := if taken then addr else s.pc + 1#8 } := by
  cases taken <;> rfl

/-- ADD and SUB as one record update (R93, R94). -/
theorem arith_eq (alu : Byte → Byte → AluResult) (addr : Byte) (s : State) :
    arith alu addr s = { s with
      mar := addr, pc := s.pc + 1#8, mbr := memRead s.mem addr,
      flags := arithFlags (alu s.acc (memRead s.mem addr)), acc := (alu s.acc (memRead s.mem addr)).result } := rfl

/-- LOAD as one record update (R87). -/
theorem loadUnder_eq (p : Config.LoadZn) (addr : Byte) (s : State) :
    loadUnder p addr s = { s with
      mar := addr, pc := s.pc + 1#8, mbr := memRead s.mem addr, acc := memRead s.mem addr,
      flags := loadFlags p (memRead s.mem addr) s.flags } := rfl

/-- STORE as one record update (R88). -/
theorem storeUnder_eq (p : Config.StoreMbr) (addr : Byte) (s : State) :
    storeUnder p addr s = { s with
      mar := addr, pc := s.pc + 1#8, mem := memWrite s.mem addr s.acc,
      mbr := match p with | .unchanged => s.mbr | .acc => s.acc } := by
  cases p <;> rfl

/-- Everything a cycle can do: it answers a next state only while Running, and then it has run the decoded instruction on
the fetched state, or taken UnknownOpcode on it. -/
theorem cycle_cases {ex : Instr → State → Host.Outcome State Fault Refusal} {s t : State} (h : cycle ex s = .next t) :
    s.run = .running ∧
      ((∃ i rest, decode (fetchedBytes (fetch s)) = .ok (i, rest) ∧ ex i (fetch s) = .next t) ∨
        (∃ e, decode (fetchedBytes (fetch s)) = .error e ∧ t = takeUnknownOpcode (fetch s))) := by
  unfold cycle at h
  split at h
  next hrun =>
    refine ⟨hrun, ?_⟩
    unfold decodeAndRun at h
    split at h
    next i rest hd => exact .inl ⟨i, rest, hd, h⟩
    next e hd => exact .inr ⟨e, hd, by injection h with h; exact h.symm⟩
  all_goals cases h

/-- A cycle of a Running engine. -/
theorem cycle_running {ex : Instr → State → Host.Outcome State Fault Refusal} {s : State} (h : s.run = .running) :
    cycle ex s = decodeAndRun ex (fetch s) := by
  simp [cycle, h]

/-- What an outcome of a cycle needs: the execution phases agree, so do the cycles. -/
theorem cycle_congr {ex ex' : Instr → State → Host.Outcome State Fault Refusal} (h : ∀ i s, ex i s = ex' i s) (s : State) :
    cycle ex s = cycle ex' s := by
  rw [show ex = ex' from funext fun i => funext fun s => h i s]

/-- A step, and what it came from. -/
theorem step_cases {s t : State} (h : step s = .next t) :
    s.run = .running ∧
      ((∃ i rest, decode (fetchedBytes (fetch s)) = .ok (i, rest) ∧ exec i (fetch s) = .next t) ∨
        (∃ e, decode (fetchedBytes (fetch s)) = .error e ∧ t = takeUnknownOpcode (fetch s))) :=
  cycle_cases h

end Sys2Proof.Machine
end

