-- ==== Sys2Proof/Laws/PerInstr.lean ====
section
/-! SUPPORT. A statement for all instructions, made per instruction: an encoding is a complete encoding (R48, R49), and it
begins with an opcode byte of the map. -/

namespace Sys2Proof.Laws.EncodesWell

/-- The encoder's bytes for a well-formed instruction are exactly one instruction by the length rule of R49. -/
def Statement (i : Instr) : Prop := wellFormed i = true → encodingWellFormed (encode i) = true

theorem load (addr : Byte) : Statement (.load addr) := fun _ => rfl
theorem store (addr : Byte) : Statement (.store addr) := fun _ => rfl
theorem add (addr : Byte) : Statement (.add addr) := fun _ => rfl
theorem sub (addr : Byte) : Statement (.sub addr) := fun _ => rfl
theorem jump (addr : Byte) : Statement (.jump addr) := fun _ => rfl
theorem jzero (addr : Byte) : Statement (.jzero addr) := fun _ => rfl
theorem halt : Statement .halt := fun _ => rfl
theorem cmp (addr : Byte) : Statement (.cmp addr) := fun _ => rfl
theorem jlt (addr : Byte) : Statement (.jlt addr) := fun _ => rfl
theorem jgt (addr : Byte) : Statement (.jgt addr) := fun _ => rfl
theorem jle (addr : Byte) : Statement (.jle addr) := fun _ => rfl
theorem jge (addr : Byte) : Statement (.jge addr) := fun _ => rfl
theorem jeq (addr : Byte) : Statement (.jeq addr) := fun _ => rfl
theorem jne (addr : Byte) : Statement (.jne addr) := fun _ => rfl

end Sys2Proof.Laws.EncodesWell
end

