-- ==== Sys2Proof/Laws/Step.lean ====
section
/-! SUPPORT. The whole step by the opcode byte at PC: what each one leaves, and that these are all the cases. -/

namespace Sys2Proof.Machine

/-- What CMP leaves after the fetch, as one record update (R95). -/
def cmpLeaves (addr : Byte) (s : State) : State :=
  { s with mar := addr, pc := s.pc + 1#8, mbr := memRead s.mem addr, flags := cmpFlags s.acc (memRead s.mem addr) }

/-- A step of a Running engine decodes the byte at PC and the byte after it (R82). -/
theorem step_running {s : State} (hrun : s.run = .running) {op : Byte} (hop : memRead s.mem s.pc = op) :
    step s = match decode [op, memRead s.mem (s.pc + 1#8)] with
      | .ok (i, _) => exec i (fetch s)
      | .error _ => .next (takeUnknownOpcode (fetch s)) := by
  subst hop
  exact cycle_running hrun

theorem step_load {s : State} (hrun : s.run = .running) (hop : memRead s.mem s.pc = 0x01#8) :
    step s = .next (loadUnder .overwrite (memRead s.mem (s.pc + 1#8)) (fetch s)) := step_running hrun hop

theorem step_store {s : State} (hrun : s.run = .running) (hop : memRead s.mem s.pc = 0x02#8) :
    step s = .next (storeUnder .unchanged (memRead s.mem (s.pc + 1#8)) (fetch s)) := step_running hrun hop

theorem step_add {s : State} (hrun : s.run = .running) (hop : memRead s.mem s.pc = 0x03#8) :
    step s = .next (arith aluAdd (memRead s.mem (s.pc + 1#8)) (fetch s)) := step_running hrun hop

theorem step_sub {s : State} (hrun : s.run = .running) (hop : memRead s.mem s.pc = 0x04#8) :
    step s = .next (arith aluSub (memRead s.mem (s.pc + 1#8)) (fetch s)) := step_running hrun hop

theorem step_jump {s : State} (hrun : s.run = .running) (hop : memRead s.mem s.pc = 0x05#8) :
    step s = .next (jumpIf true (memRead s.mem (s.pc + 1#8)) (fetch s)) := step_running hrun hop

theorem step_jzero {s : State} (hrun : s.run = .running) (hop : memRead s.mem s.pc = 0x06#8) :
    step s = .next (jumpIf (isZero s.acc) (memRead s.mem (s.pc + 1#8)) (fetch s)) := step_running hrun hop

theorem step_halt {s : State} (hrun : s.run = .running) (hop : memRead s.mem s.pc = 0x07#8) :
    step s = .next (setRun .halted (fetch s)) := step_running hrun hop

theorem step_cmp {s : State} (hrun : s.run = .running) (hop : memRead s.mem s.pc = 0x08#8) :
    step s = .next (cmpLeaves (memRead s.mem (s.pc + 1#8)) (fetch s)) := step_running hrun hop

theorem step_jlt {s : State} (hrun : s.run = .running) (hop : memRead s.mem s.pc = 0x09#8) :
    step s = .next (jumpIf (condLt s.flags) (memRead s.mem (s.pc + 1#8)) (fetch s)) := step_running hrun hop

theorem step_jgt {s : State} (hrun : s.run = .running) (hop : memRead s.mem s.pc = 0x0A#8) :
    step s = .next (jumpIf (condGt s.flags) (memRead s.mem (s.pc + 1#8)) (fetch s)) := step_running hrun hop

theorem step_jle {s : State} (hrun : s.run = .running) (hop : memRead s.mem s.pc = 0x0B#8) :
    step s = .next (jumpIf (condLe s.flags) (memRead s.mem (s.pc + 1#8)) (fetch s)) := step_running hrun hop

theorem step_jge {s : State} (hrun : s.run = .running) (hop : memRead s.mem s.pc = 0x0C#8) :
    step s = .next (jumpIf (condGe s.flags) (memRead s.mem (s.pc + 1#8)) (fetch s)) := step_running hrun hop

theorem step_jeq {s : State} (hrun : s.run = .running) (hop : memRead s.mem s.pc = 0x0D#8) :
    step s = .next (jumpIf (condEq s.flags) (memRead s.mem (s.pc + 1#8)) (fetch s)) := step_running hrun hop

theorem step_jne {s : State} (hrun : s.run = .running) (hop : memRead s.mem s.pc = 0x0E#8) :
    step s = .next (jumpIf (condNe s.flags) (memRead s.mem (s.pc + 1#8)) (fetch s)) := step_running hrun hop

/-- An illegal byte at PC takes UnknownOpcode on the fetched state (R109). -/
theorem step_illegal {s : State} (hrun : s.run = .running)
    (hop : (memRead s.mem s.pc).toNat = 0 ∨ 15 ≤ (memRead s.mem s.pc).toNat) :
    step s = .next (takeUnknownOpcode (fetch s)) := by
  rw [step_running hrun rfl, decode_illegal _ hop]

/-- All that a step can do: the engine was Running, and the opcode byte says which of fifteen states it left. -/
theorem step_inversion {s t : State} (h : step s = .next t) : s.run = .running ∧ (
    (memRead s.mem s.pc = 0x01#8 ∧ t = loadUnder .overwrite (memRead s.mem (s.pc + 1#8)) (fetch s)) ∨
    (memRead s.mem s.pc = 0x02#8 ∧ t = storeUnder .unchanged (memRead s.mem (s.pc + 1#8)) (fetch s)) ∨
    (memRead s.mem s.pc = 0x03#8 ∧ t = arith aluAdd (memRead s.mem (s.pc + 1#8)) (fetch s)) ∨
    (memRead s.mem s.pc = 0x04#8 ∧ t = arith aluSub (memRead s.mem (s.pc + 1#8)) (fetch s)) ∨
    (memRead s.mem s.pc = 0x05#8 ∧ t = jumpIf true (memRead s.mem (s.pc + 1#8)) (fetch s)) ∨
    (memRead s.mem s.pc = 0x06#8 ∧ t = jumpIf (isZero s.acc) (memRead s.mem (s.pc + 1#8)) (fetch s)) ∨
    (memRead s.mem s.pc = 0x07#8 ∧ t = setRun .halted (fetch s)) ∨
    (memRead s.mem s.pc = 0x08#8 ∧ t = cmpLeaves (memRead s.mem (s.pc + 1#8)) (fetch s)) ∨
    (memRead s.mem s.pc = 0x09#8 ∧ t = jumpIf (condLt s.flags) (memRead s.mem (s.pc + 1#8)) (fetch s)) ∨
    (memRead s.mem s.pc = 0x0A#8 ∧ t = jumpIf (condGt s.flags) (memRead s.mem (s.pc + 1#8)) (fetch s)) ∨
    (memRead s.mem s.pc = 0x0B#8 ∧ t = jumpIf (condLe s.flags) (memRead s.mem (s.pc + 1#8)) (fetch s)) ∨
    (memRead s.mem s.pc = 0x0C#8 ∧ t = jumpIf (condGe s.flags) (memRead s.mem (s.pc + 1#8)) (fetch s)) ∨
    (memRead s.mem s.pc = 0x0D#8 ∧ t = jumpIf (condEq s.flags) (memRead s.mem (s.pc + 1#8)) (fetch s)) ∨
    (memRead s.mem s.pc = 0x0E#8 ∧ t = jumpIf (condNe s.flags) (memRead s.mem (s.pc + 1#8)) (fetch s)) ∨
    (((memRead s.mem s.pc).toNat = 0 ∨ 15 ≤ (memRead s.mem s.pc).toNat) ∧ t = takeUnknownOpcode (fetch s))) := by
  have hrun := (step_cases h).1
  have key : ∀ {u : State}, step s = .next u → t = u := fun hu => by rw [h] at hu; exact Host.Outcome.next.inj hu
  refine ⟨hrun, ?_⟩
  rcases opcode_cases (memRead s.mem s.pc) with e | e | e | e | e | e | e | e | e | e | e | e | e | e | e
  · exact .inl ⟨e, key (step_load hrun e)⟩
  · exact .inr (.inl ⟨e, key (step_store hrun e)⟩)
  · exact .inr (.inr (.inl ⟨e, key (step_add hrun e)⟩))
  · exact .inr (.inr (.inr (.inl ⟨e, key (step_sub hrun e)⟩)))
  · exact .inr (.inr (.inr (.inr (.inl ⟨e, key (step_jump hrun e)⟩))))
  · exact .inr (.inr (.inr (.inr (.inr (.inl ⟨e, key (step_jzero hrun e)⟩)))))
  · exact .inr (.inr (.inr (.inr (.inr (.inr (.inl ⟨e, key (step_halt hrun e)⟩))))))
  · exact .inr (.inr (.inr (.inr (.inr (.inr (.inr (.inl ⟨e, key (step_cmp hrun e)⟩)))))))
  · exact .inr (.inr (.inr (.inr (.inr (.inr (.inr (.inr (.inl ⟨e, key (step_jlt hrun e)⟩))))))))
  · exact .inr (.inr (.inr (.inr (.inr (.inr (.inr (.inr (.inr (.inl ⟨e, key (step_jgt hrun e)⟩)))))))))
  · exact .inr (.inr (.inr (.inr (.inr (.inr (.inr (.inr (.inr (.inr (.inl ⟨e, key (step_jle hrun e)⟩))))))))))
  · exact .inr (.inr (.inr (.inr (.inr (.inr (.inr (.inr (.inr (.inr (.inr (.inl ⟨e, key (step_jge hrun e)⟩)))))))))))
  · exact .inr (.inr (.inr (.inr (.inr (.inr (.inr (.inr (.inr (.inr (.inr (.inr (.inl ⟨e, key (step_jeq hrun e)⟩))))))))))))
  · exact .inr (.inr (.inr (.inr (.inr (.inr (.inr (.inr (.inr (.inr (.inr (.inr (.inr (.inl ⟨e, key (step_jne hrun e)⟩)))))))))))))
  · exact .inr (.inr (.inr (.inr (.inr (.inr (.inr (.inr (.inr (.inr (.inr (.inr (.inr (.inr (⟨e, key (step_illegal hrun e)⟩))))))))))))))

/-- A Running engine always steps (R83, R85). -/
theorem step_next {s : State} (hrun : s.run = .running) : ∃ t, step s = .next t := by
  rcases opcode_cases (memRead s.mem s.pc) with e | e | e | e | e | e | e | e | e | e | e | e | e | e | e
  · exact ⟨_, step_load hrun e⟩
  · exact ⟨_, step_store hrun e⟩
  · exact ⟨_, step_add hrun e⟩
  · exact ⟨_, step_sub hrun e⟩
  · exact ⟨_, step_jump hrun e⟩
  · exact ⟨_, step_jzero hrun e⟩
  · exact ⟨_, step_halt hrun e⟩
  · exact ⟨_, step_cmp hrun e⟩
  · exact ⟨_, step_jlt hrun e⟩
  · exact ⟨_, step_jgt hrun e⟩
  · exact ⟨_, step_jle hrun e⟩
  · exact ⟨_, step_jge hrun e⟩
  · exact ⟨_, step_jeq hrun e⟩
  · exact ⟨_, step_jne hrun e⟩
  · exact ⟨_, step_illegal hrun e⟩

end Sys2Proof.Machine
end

