-- ==== Sys2Proof/Laws/Run.lean ====
section
/-! SUPPORT. Runs of several steps, one step at a time. -/

namespace Sys2Proof.Machine

@[simp] theorem core_run_zero (s : State) : core.run 0 s = .next s := rfl

/-- A run of `k + 1` steps is one step and then a run of `k`. -/
theorem core_run_succ (k : Nat) (s : State) :
    core.run (k + 1) s =
      match step s with
      | .next t => core.run k t
      | .fault r => .fault r
      | .refused r => .refused r := by
  cases h : step s <;> simp [Host.Core.run, core, h]

/-- A run that begins with a step that answers `t` goes on from `t`. -/
theorem core_run_of_step {s t : State} (h : step s = .next t) (k : Nat) : core.run (k + 1) s = core.run k t := by
  rw [core_run_succ, h]

/-- An invariant that every step keeps holds after any run. -/
theorem core_run_invariant {P : State → Prop} (hstep : ∀ s t, P s → step s = .next t → P t) {k : Nat} {s t : State}
    (hs : P s) (hrun : core.run k s = .next t) : P t := by
  induction k generalizing s with
  | zero => exact Host.Outcome.next.inj hrun ▸ hs
  | succ k ih =>
    rw [core_run_succ] at hrun
    cases h : step s with
    | next u => rw [h] at hrun; exact ih (hstep s u hs h) hrun
    | fault r => rw [h] at hrun; cases hrun
    | refused r => rw [h] at hrun; cases hrun

end Sys2Proof.Machine
end

