-- ==== Sys2Proof/Tests/Slice0.lean ====
section
/-! SUPPORT. Tests against the spec's own vectors (95_test_vectors.md and the rules' worked examples), the smoke test of
WellFormed, words written out bit by bit, and a witness for every statement that has hypotheses. -/

namespace Sys2Proof.Tests

open Sys2Proof.Machine Sys2Proof.Claims

/-- Memory with the given bytes at the given addresses. -/
def cells : List (Byte × Byte) → Memory
  | [] => []
  | (a, v) :: rest => memWrite (cells rest) a v

/-- A Running engine with the given PC, ACC, FLAGS and memory, the other registers 0. -/
def engine (pc acc flags : Byte) (mem : List (Byte × Byte)) : State :=
  { acc := acc, pc := pc, ir := 0, mar := 0, mbr := 0, flags := flags, mem := cells mem, run := .running }

/-- The state one step leaves, if it leaves one. -/
def after (s : State) : Option State :=
  match step s with
  | .next t => some t
  | .fault _ => none
  | .refused _ => none

/-- PC, ACC and FLAGS after one step. -/
def core3 (s : State) : Option (Byte × Byte × Byte) := (after s).map fun t => (t.pc, t.acc, t.flags)

/-- MAR, MBR and IR after one step. -/
def inner3 (s : State) : Option (Byte × Byte × Byte) := (after s).map fun t => (t.mar, t.mbr, t.ir)

/-! ## WellFormed: an ill-formed string for each check (R48, R49) -/

theorem test_wellFormed_two_bytes : encodingWellFormed [0x01, 0xFF] = true := by decide
theorem test_wellFormed_refuses_no_bytes : encodingWellFormed [] = false := by decide
theorem test_wellFormed_refuses_opcode_zero : encodingWellFormed [0x00, 0x01] = false := by decide
theorem test_wellFormed_refuses_opcode_0F : encodingWellFormed [0x0F, 0x01] = false := by decide
theorem test_wellFormed_refuses_missing_operand : encodingWellFormed [0x0E] = false := by decide
theorem test_wellFormed_refuses_byte_after_halt : encodingWellFormed [0x07, 0x00] = false := by decide
theorem test_wellFormed_refuses_third_byte : encodingWellFormed [0x02, 0x00, 0x00] = false := by decide
theorem test_memory_wf_refuses_zero_byte : Memory.wf [(3, 0x00)] = false := by decide
theorem test_memory_wf_refuses_disorder : Memory.wf [(3, 0x01), (2, 0x01)] = false := by decide
theorem test_memory_wf_refuses_repeat : Memory.wf [(3, 0x01), (3, 0x02)] = false := by decide
theorem test_memory_wf_refuses_address_256 : Memory.wf [(256, 0x01)] = false := by decide

/-! ## Decoding: every constructor from a word written out bit by bit (R48, R50) -/

theorem test_decode_load : decode [0b00000001, 0b01100100] = .ok (.load 100, []) := rfl
theorem test_decode_store : decode [0b00000010, 0b00000101] = .ok (.store 5, []) := rfl
theorem test_decode_add : decode [0b00000011, 0b00001011] = .ok (.add 11, []) := rfl
theorem test_decode_sub : decode [0b00000100, 0b00011111] = .ok (.sub 31, []) := rfl
theorem test_decode_jump : decode [0b00000101, 0b11111111] = .ok (.jump 255, []) := rfl
theorem test_decode_jzero : decode [0b00000110, 0b00010000] = .ok (.jzero 16, []) := rfl
theorem test_decode_halt : decode [0b00000111, 0b10011001] = .ok (.halt, [0x99]) := rfl
theorem test_decode_cmp : decode [0b00001000, 0b00101001] = .ok (.cmp 41, []) := rfl
theorem test_decode_jlt : decode [0b00001001, 0b00010100] = .ok (.jlt 20, []) := rfl
theorem test_decode_jgt : decode [0b00001010, 0b00011110] = .ok (.jgt 30, []) := rfl
theorem test_decode_jle : decode [0b00001011, 0b00001001] = .ok (.jle 9, []) := rfl
theorem test_decode_jge : decode [0b00001100, 0b00001000] = .ok (.jge 8, []) := rfl
theorem test_decode_jeq : decode [0b00001101, 0b00101000] = .ok (.jeq 40, []) := rfl
theorem test_decode_jne : decode [0b00001110, 0b10000000] = .ok (.jne 128, []) := rfl
theorem test_decode_refuses_00 : decode [0x00, 0x01] = .error (.unknownOpcode 0x00) := rfl
theorem test_decode_refuses_0F : decode [0x0F, 0x01] = .error (.unknownOpcode 0x0F) := rfl
theorem test_decode_refuses_FF : decode [0xFF, 0x01] = .error (.unknownOpcode 0xFF) := rfl
theorem test_table_word_load : decodeTableWord 16 0x0164 = some (.load 100) := by decide
theorem test_table_word_halt : decodeTableWord 8 0x07 = some .halt := by decide
theorem test_fetch_word_runs :
    core3 (State.reset.withFetchWord 16 0x0540) = some (0x40, 0x00, 0x00) := by decide

/-! ## One step per instruction (rules' worked examples and 95_test_vectors.md sections 1 and 2) -/

/-- 2.1: LOAD at 255 takes its operand from address 0. -/
theorem test_load_wraps :
    inner3 (engine 255 0 0x0E [(255, 0x01), (0, 7), (7, 0x42)]) = some (7, 0x42, 0x01) := by decide
/-- 2.2: LOAD of 0 over FLAGS 0x0E gives 0x0D. -/
theorem test_load_flags : core3 (engine 0 0x55 0x0E [(0, 0x01), (1, 100)]) = some (2, 0x00, 0x0D) := by decide
/-- 2.2: `STORE 4` at 4 overwrites its own opcode; MBR keeps 0x02. -/
theorem test_store_own_opcode :
    (after (engine 4 0x99 0x0A [(4, 0x02), (5, 4)])).map (fun t => (memRead t.mem 4, memRead t.mem 5, t.mbr, t.mar, t.flags))
      = some (0x99, 0x04, 0x02, 4, 0x0A) := by decide
/-- 2.2: `STORE 5` at 4 overwrites its own operand, already read. -/
theorem test_store_own_operand :
    (after (engine 4 0x99 0x0A [(4, 0x02), (5, 5)])).map (fun t => (memRead t.mem 4, memRead t.mem 5, t.pc))
      = some (0x02, 0x99, 6) := by decide
/-- 2.3: 0x80 + 0x80 and 0x7F + 0x01, FLAGS 0x0F before. -/
theorem test_add_carry_overflow :
    core3 (engine 0 0x80 0x0F [(0, 0x03), (1, 100), (100, 0x80)]) = some (2, 0x00, 0x0D) := by decide
theorem test_add_signed_overflow :
    core3 (engine 0 0x7F 0x0F [(0, 0x03), (1, 100), (100, 0x01)]) = some (2, 0x80, 0x0A) := by decide
/-- 2.3: 0x7F - 0xFF and 0x80 - 0x01. -/
theorem test_sub_borrow_overflow :
    core3 (engine 0 0x7F 0x0F [(0, 0x04), (1, 100), (100, 0xFF)]) = some (2, 0x80, 0x0E) := by decide
theorem test_sub_overflow :
    core3 (engine 0 0x80 0x0F [(0, 0x04), (1, 100), (100, 0x01)]) = some (2, 0x7F, 0x08) := by decide
/-- 2.4: 200 vs 10 gives V only; 0 vs 128 fits. -/
theorem test_cmp_unsigned : core3 (engine 0 200 0x0F [(0, 0x08), (1, 100), (100, 10)]) = some (2, 200, 0x08) := by decide
theorem test_cmp_fits : core3 (engine 0 0 0x0F [(0, 0x08), (1, 100), (100, 128)]) = some (2, 0, 0x02) := by decide
/-- 2.5: JUMP at 0x10 to 0x40; MAR and MBR stay the fetch's. -/
theorem test_jump : core3 (engine 0x10 0 0x0C [(0x10, 0x05), (0x11, 0x40)]) = some (0x40, 0, 0x0C) := by decide
theorem test_jump_inner : inner3 (engine 0x10 0 0 [(0x10, 0x05), (0x11, 0x40)]) = some (0x10, 0x05, 0x05) := by decide
/-- L1-5. -/
theorem test_jzero_taken : core3 (engine 0x10 0 0x02 [(0x10, 0x06), (0x11, 0x40)]) = some (0x40, 0, 0x02) := by decide
theorem test_jzero_not_taken : core3 (engine 0x10 5 0x01 [(0x10, 0x06), (0x11, 0x40)]) = some (0x12, 5, 0x01) := by decide
/-- L1-6, the rows of each jump. -/
theorem test_jlt_taken : core3 (engine 0x10 1 0x02 [(0x10, 0x09), (0x11, 0x40)]) = some (0x40, 1, 0x02) := by decide
theorem test_jlt_not_taken : core3 (engine 0x10 1 0x0C [(0x10, 0x09), (0x11, 0x40)]) = some (0x12, 1, 0x0C) := by decide
theorem test_jgt_taken : core3 (engine 0x10 1 0x0C [(0x10, 0x0A), (0x11, 0x40)]) = some (0x40, 1, 0x0C) := by decide
theorem test_jgt_not_taken : core3 (engine 0x10 1 0x01 [(0x10, 0x0A), (0x11, 0x40)]) = some (0x12, 1, 0x01) := by decide
theorem test_jle_taken : core3 (engine 0x10 1 0x01 [(0x10, 0x0B), (0x11, 0x40)]) = some (0x40, 1, 0x01) := by decide
theorem test_jle_not_taken : core3 (engine 0x10 1 0x0C [(0x10, 0x0B), (0x11, 0x40)]) = some (0x12, 1, 0x0C) := by decide
theorem test_jge_taken : core3 (engine 0x10 1 0x01 [(0x10, 0x0C), (0x11, 0x40)]) = some (0x40, 1, 0x01) := by decide
theorem test_jge_not_taken : core3 (engine 0x10 1 0x03 [(0x10, 0x0C), (0x11, 0x40)]) = some (0x12, 1, 0x03) := by decide
theorem test_jeq_taken : core3 (engine 0x10 1 0x03 [(0x10, 0x0D), (0x11, 0x40)]) = some (0x40, 1, 0x03) := by decide
/-- 2.1: JEQ at 255, not taken. -/
theorem test_jeq_not_taken_wraps : core3 (engine 255 1 0x00 [(255, 0x0D), (0, 0x20)]) = some (1, 1, 0x00) := by decide
theorem test_jne_taken : core3 (engine 0x10 1 0x02 [(0x10, 0x0E), (0x11, 0x40)]) = some (0x40, 1, 0x02) := by decide
theorem test_jne_not_taken : core3 (engine 0x10 5 0x01 [(0x10, 0x0E), (0x11, 0x40)]) = some (0x12, 5, 0x01) := by decide
/-- 2.6: HALT at 0x20 and at 255. -/
theorem test_halt :
    (after (engine 0x20 3 0x0A [(0x20, 0x07), (0x21, 0x99)])).map (fun t => (t.run, t.pc, t.mar, t.mbr, t.acc, t.flags))
      = some (.halted, 0x21, 0x20, 0x07, 3, 0x0A) := by decide
theorem test_halt_wraps : core3 (engine 255 0 0 [(255, 0x07)]) = some (0, 0, 0) := by decide
/-- L1-11 and 2.7: UnknownOpcode. -/
theorem test_unknown_opcode_63 :
    (after (engine 0 0 0 [(0, 0x63), (1, 0x07)])).map (fun t => (t.run, t.pc, t.mar, t.mbr, t.ir))
      = some (.faulted 0x63, 1, 0, 0x63, 0x63) := by decide
theorem test_unknown_opcode_at_255 :
    (after (engine 255 9 0x04 [(255, 0x10)])).map (fun t => (t.run, t.pc, t.mar, t.acc, t.flags))
      = some (.faulted 0x10, 0, 255, 9, 0x04) := by decide
/-- 2.6: a STEP after Halted is refused. -/
theorem test_step_after_halt_refused : after { engine 0 0 0 [(0, 0x07)] with run := .halted } = none := by decide
/-- 2.2, the or_in column: FLAGS 0x0E and a 0 byte give 0x0F. P_STORE_MBR = acc gives MBR = ACC. -/
theorem test_alternative_parameters :
    (loadUnder .orIn 100 (engine 1 0x55 0x0E [(1, 100)])).flags = 0x0F ∧
    (storeUnder .acc 4 (engine 5 0x99 0x0A [(4, 0x02), (5, 4)])).mbr = 0x99 := by decide

/-! ## Assembler (95_test_vectors.md section 2.9) -/

/-- The error of a source text. -/
def asmError (source : String) : Option AsmError :=
  match assemble source.toList with
  | .ok _ => none
  | .error f => some f.error

/-- The trace of a source text. -/
def asmTrace (source : String) : Option (List Text) :=
  match assemble source.toList with
  | .ok out => some out.trace
  | .error _ => none

theorem test_asm_aliases_any_case :
    asmTrace "Jmp 3\njz 4\nHLT" = some ["05".toList, "03".toList, "06".toList, "04".toList, "07".toList] := by decide +kernel
theorem test_asm_comment_label :
    asmTrace "LOAD 5;comment\nloop:\n  ; full\n\nLOAD 5 ; go:" = some ["01".toList, "05".toList] := by decide +kernel
theorem test_asm_halt_drops_token : asmTrace "HALT x" = some ["07".toList] := by decide +kernel
theorem test_asm_missing_operand : asmTrace "LOAD\n9" = some ["01".toList, "09".toList] := by decide +kernel
theorem test_asm_operand_range : asmError "LOAD 256" = some (.invalidOperand 1) := by decide +kernel
theorem test_asm_symbolic_operand : asmError "loop:\nJUMP loop" = some (.invalidOperand 2) := by decide +kernel
theorem test_asm_org_comment : asmError ".org 10 ; x" = some (.invalidOrg 1) := by decide +kernel
theorem test_asm_data_comment : asmError "5 ; x" = some (.unknownInstruction "5".toList 1) := by decide +kernel
theorem test_asm_data_range : asmError "-1" = some (.invalidData 1) := by decide +kernel
theorem test_asm_cursor_overflow : asmError ".org 255\nLOAD 5" = some (.cursorOverflow 2) := by decide +kernel
theorem test_asm_name_as_written : asmError "\nfoo 1" = some (.unknownInstruction "foo".toList 2) := by decide +kernel
/-- R74 (b): the two-pass reading resolves `JUMP loop` to the cursor at the label. -/
theorem test_asm_two_pass :
    (match assembleUnder .twoPass "HALT\nloop:\nJUMP loop".toList with | .ok out => some out.trace | .error _ => none)
      = some ["07".toList, "05".toList, "01".toList] := by decide +kernel

/-! ## Witnesses: for each statement with hypotheses, a state and operands that meet them, one for each clause -/

theorem test_witness_FetchEffect : (engine 255 0 0 [(255, 0x01)]).run = .running := rfl
theorem test_witness_StepRunsTheDecodedInstruction :
    let s := engine 255 0 0 [(255, 0x01), (0, 7)]
    s.run = .running ∧ decode [opAt s, operandAt s] = .ok (.load 7, []) ∧ wellFormed (.load 7) = true := ⟨rfl, rfl, rfl⟩
/-- The three clauses of R83 at the edges of the opcode range. -/
theorem test_witness_StepStatusFollowsOpcode :
    (¬ Legal 0x00 ∧ Legal 0x01 ∧ Legal 0x0E ∧ ¬ Legal 0x0F ∧ ¬ Legal 0xFF) ∧
    (engine 0 0 0 [(0, 0x0E)]).run = .running ∧ opAt (engine 0 0 0 [(0, 0x0E)]) = 0x0E ∧
    opAt (engine 0 0 0 [(0, 0x07)]) = 0x07 ∧ opAt (engine 0 0 0 [(0, 0x0F)]) = 0x0F := by decide
theorem test_witness_StoppedEngineRefusesStep :
    Stopped { State.reset with run := .halted } ∧ Stopped { State.reset with run := .faulted 0xFF } := by decide
theorem test_witness_UnknownOpcodeEntry :
    let s := engine 255 0 0 [(255, 0x0F)]
    s.run = .running ∧ ¬ Legal (opAt s) ∧ ¬ Legal (opAt (engine 255 0 0 [])) := by decide
theorem test_witness_StepIsTheSpecsPseudocode : (engine 0 1 0x0F [(0, 0x04)]).run = .running := rfl
/-- `RunsAs` of each two-byte opcode, at the PC that wraps. -/
theorem test_witness_RunsAs :
    ([0x01, 0x02, 0x03, 0x04, 0x05, 0x06, 0x08, 0x09, 0x0A, 0x0B, 0x0C, 0x0D, 0x0E] : List Byte).all (fun op =>
      (engine 255 0 0 [(255, op)]).run == .running && opAt (engine 255 0 0 [(255, op)]) == op) = true := by decide
/-- Both cases of each jump's condition. -/
theorem test_witness_JumpsIff :
    (State.reset.acc.toNat = 0 ∧ ¬ (engine 0 0x80 0x01 []).acc.toNat = 0) ∧
    (N (engine 0 0 0x02 []) = true ∧ N (engine 0 0 0x0D []) = false) ∧
    (Z (engine 0 0 0x01 []) = true ∧ Z (engine 0 0 0x0E []) = false) ∧
    (N (engine 0 0 0x0C []) = false ∧ Z (engine 0 0 0x0C []) = false) := by decide
theorem test_witness_StoreResult :
    Memory.wf (engine 0 0 0 [(0, 0x02), (255, 0x01)]).mem = true ∧ (254 : Byte) ≠ 255 := by decide
theorem test_witness_HaltResult :
    (engine 255 0 0 [(255, 0x07)]).run = .running ∧ opAt (engine 255 0 0 [(255, 0x07)]) = 0x07 := by decide
/-- V clear and V set after ADD and SUB. -/
theorem test_witness_AddSubServeUnsignedAndSigned :
    (after (engine 0 0x7F 0 [(0, 0x03), (1, 9), (9, 0x01)])).map V = some true ∧
    (after (engine 0 0x7E 0 [(0, 0x03), (1, 9), (9, 0x01)])).map V = some false ∧
    (after (engine 0 0x80 0 [(0, 0x04), (1, 9), (9, 0x01)])).map V = some true ∧
    (after (engine 0 0x81 0 [(0, 0x04), (1, 9), (9, 0x01)])).map V = some false := by decide
/-- The three branches of R20, and both values of the jump condition. -/
theorem test_witness_PcAfterStep :
    (engine 254 0 0 [(254, 0x05)]).run = .running ∧ jumpTaken 0x05 (engine 254 0 0 []) = true ∧
    jumpTaken 0x06 (engine 254 1 0 []) = false ∧ jumpTaken 0x01 (engine 254 0 0 []) = false ∧
    ¬ Legal (opAt (engine 255 0 0 [])) ∧ opAt (engine 255 0 0 [(255, 0x07)]) = 0x07 := by decide
theorem test_witness_IrHoldsTheFetchedByte :
    (engine 255 0 0 [(255, 0x63)]).run = .running ∧
    (let s := { State.reset with ir := 0x0E }
     decode [s.ir, memRead s.mem s.pc] = .ok (.jne 0, [])) := by decide
theorem test_witness_DecoderRefusesExactlyIllegalBytes :
    (engine 255 0 0 [(255, 0x0F)]).run = .running ∧ 15 ≤ (opAt (engine 255 0 0 [(255, 0x0F)])).toNat ∧
    (opAt (engine 255 0 0 [])).toNat = 0 := by decide
theorem test_witness_RunAfterStep : (engine 255 0 0 [(255, 0x07)]).run = .running := rfl
theorem test_witness_MarMbrAfterStep :
    DataOp 0x08 ∧ DataOp 0x02 ∧ ¬ DataOp 0x07 ∧ ¬ DataOp 0x09 ∧ (engine 0 0 0 [(0, 0x08)]).run = .running := by decide
theorem test_witness_OnlyLoadAddSubWriteAcc :
    (after (engine 0 0 0 [(0, 0x04), (1, 9), (9, 0x01)])).map (fun t => t.acc != 0x00) = some true := by decide
theorem test_witness_FlagsWriters :
    (after (engine 0 0 0x0C [(0, 0x01), (1, 9)])).map (fun t => t.flags != 0x0C) = some true ∧
    opAt (engine 0 0 0x0F [(0, 0x08)]) = 0x08 ∧ FlagsHighZero (engine 0 0 0x0F [(0, 0x08)]) := by decide
theorem test_witness_OnlyStoreWritesMemory :
    let s := engine 255 0x33 0 [(255, 0x02), (0, 0x80)]
    Memory.wf s.mem = true ∧ (after s).map (fun t => memRead t.mem 0x80 != memRead s.mem 0x80) = some true ∧
      (after s).map (fun t => decide (t.mem ≠ s.mem)) = some true ∧
      (resetEngine s).mem ≠ s.mem := by decide
/-- A STORE into the next opcode, and one into the operand of the instruction after it. -/
theorem test_witness_StoreSeenByLaterFetch :
    let s := engine 0 0x99 0 [(0, 0x02), (1, 2)]
    let s' := engine 0 0x99 0 [(0, 0x02), (1, 3)]
    Memory.wf s.mem = true ∧ opAt s = 0x02 ∧ (after s).map (fun t => t.pc == operandAt s) = some true ∧
      Memory.wf s'.mem = true ∧ opAt s' = 0x02 ∧ (after s').map (fun t => t.pc + 1 == operandAt s') = some true := by decide
theorem test_witness_JumpToItselfNeverEnds :
    let s := engine 16 0 0 [(16, 0x05), (17, 16)]
    s.run = .running ∧ opAt s = 0x05 ∧ operandAt s = s.pc := by decide
theorem test_witness_DecodeEncodeRoundTrip : wellFormed (.jne 255) = true := rfl
theorem test_witness_EncodeDecodeRoundTrip : decode [0x0E, 0xFF, 0x00] = .ok (.jne 255, [0x00]) := rfl
theorem test_witness_OpcodeTableWordsDecode : encode (.jne 255) = [0x0E, 0xFF] := rfl
theorem test_witness_StepKeepsInvariant :
    EngineInv (engine 0 1 0x0E [(0, 0x02), (1, 9)]) ∧ ∃ t, step (engine 0 1 0x0E [(0, 0x02), (1, 9)]) = .next t :=
  ⟨by decide, _, rfl⟩
theorem test_witness_ReachableStatesMeetInvariant : ∃ s, s.run = .faulted 0x00 ∧ Reachable s :=
  ⟨_, rfl, .transaction (t := .step) .construction rfl⟩
theorem test_witness_OrInReachesZeroAndNegative :
    memRead (engine 0 3 0x02 []).mem 9 = 0x00 ∧ N (engine 0 3 0x02 []) = true := by decide
theorem test_witness_CarryAndOverflowNeverRead :
    SameButCarryOverflow (engine 0 0 0x00 [(0, 0x0B)]) (engine 0 0 0x0C [(0, 0x0B)]) ∧
      ∃ t : State, core.run 1 (engine 0 0 0x00 [(0, 0x0B)]) = .next t :=
  ⟨⟨rfl, rfl, rfl, rfl, rfl, rfl, rfl, rfl, rfl⟩, _, rfl⟩
theorem test_witness_InternalRegistersNeverRead : State.reset.run = .running := rfl
theorem test_witness_StoreMbrChoiceShowsOnlyInMbr :
    let q : Config.Params := { decided with storeMbr := .acc }
    decided.loadZn = q.loadZn ∧ ∃ t, runUnder decided 1 (engine 0 9 0 [(0, 0x02), (1, 40)]) = .next t :=
  ⟨rfl, _, rfl⟩
theorem test_witness_LaunchState : ∃ t, step (launch (imageOf []) State.reset) = .next t :=
  step_next rfl
theorem test_witness_StoppedOnlyLeftByReset :
    let s := { State.reset with run := .halted }
    Stopped s ∧ Transaction.reset ∉ [Transaction.observe] ∧
      session [.observe] s = .next (s, [.snapshot (observe s)]) := ⟨by decide, by simp, rfl⟩
theorem test_witness_FirstErrorEndsAssembly :
    assemble "FOO 1".toList = .error ⟨.unknownInstruction "FOO".toList 1, []⟩ := rfl
theorem test_witness_NonzeroCellsAreTraced :
    (match assemble "7".toList with | .ok out => imageAt out.image 0 != 0x00 | .error _ => false) = true := by
  decide +kernel
theorem test_witness_AliasesAndCase : foldCase "Load".toList = foldCase "lOAD".toList := by decide
/-- HALT with a token, no token, a token in range at cursor 254 and at 255, tokens 256, -1 and no number. -/
theorem test_witness_OperandHandling :
    opcodeOf "HALT".toList = some 0x07 ∧ opcodeOf "load".toList = some 0x01 ∧ (0x01 : Byte) ≠ 0x07 ∧
    decimal "255".toList = some 255 ∧ decimal "0".toList = some 0 ∧ decimal "256".toList = some 256 ∧
    decimal "-1".toList = some (-1) ∧ decimal "0x10".toList = none := by decide
/-- A success, and a failure under each value of P_ASM_FAIL_IMAGE. -/
theorem test_witness_AssemblyIntoMemory :
    (∃ out, assembleUnder decided.labels "HALT".toList = .ok out) ∧
    assembleUnder decided.labels "LOAD 256".toList = .error ⟨.invalidOperand 1, [(0, 0x01)]⟩ ∧
    decided.asmFailImage = .noLaunch ∧ ({ decided with asmFailImage := .zero } : Config.Params).asmFailImage = .zero ∧
    ({ decided with asmFailImage := .partialImage } : Config.Params).asmFailImage = .partialImage :=
  ⟨⟨_, rfl⟩, rfl, rfl, rfl, rfl⟩

end Sys2Proof.Tests
end

section
/-! PROOFS. The machine under its parameters (00_scope.md R7): at the decided values it is the machine of `step`. -/

namespace Sys2Proof.Machine

/-- D3 and D4 enter in LOAD and STORE alone: `execLoad` and `execStore` take the decided values, and no other arm reads a
parameter. -/
@[simp] theorem execUnder_decided (i : Instr) (s : State) : execUnder decided i s = exec i s := by
  cases i <;> rfl

/-- Settles O46: the execution phases agree on every instruction, so the cycles around them agree. -/
theorem decidedParametersGiveStep : Obligations.DecidedParametersGiveStep := by
  intro s
  calc stepUnder decided s = cycle (execUnder decided) s := rfl
    _ = cycle exec s := cycle_congr execUnder_decided s
    _ = step s := rfl

end Sys2Proof.Machine
end

section
/-! PROOFS. What one step leaves, by the class of its opcode byte: the eight jumps are one case, ADD and SUB are one. -/

namespace Sys2Proof.Machine

open Sys2Proof.Claims

/-- The jump conditions read bits 0 and 1 of FLAGS and nothing else (R101 to R106). -/
theorem condLt_eq (flags : Byte) : condLt flags = flags.getLsbD 1 := flagOn_maskN flags
theorem condGt_eq (flags : Byte) : condGt flags = (!flags.getLsbD 1 && !flags.getLsbD 0) := by
  rw [condGt, flagOn_maskN, flagOn_maskZ]
theorem condLe_eq (flags : Byte) : condLe flags = (flags.getLsbD 1 || flags.getLsbD 0) := by
  rw [condLe, flagOn_maskN, flagOn_maskZ]
theorem condGe_eq (flags : Byte) : condGe flags = !flags.getLsbD 1 := by rw [condGe, flagOn_maskN]
theorem condEq_eq (flags : Byte) : condEq flags = flags.getLsbD 0 := flagOn_maskZ flags
theorem condNe_eq (flags : Byte) : condNe flags = !flags.getLsbD 0 := by rw [condNe, flagOn_maskZ]

/-- The opcodes of the eight jumps: those of two-byte instructions without a data access. -/
abbrev JumpOp (op : Byte) : Prop := Legal op ∧ ¬ DataOp op ∧ op ≠ 0x07#8

/-- The state a step of a Running engine leaves, by the class of the byte at PC. -/
inductive StepShape (s : State) : State → Prop
  | load (hop : opAt s = 0x01#8) : StepShape s (loadUnder .overwrite (operandAt s) (fetch s))
  | store (hop : opAt s = 0x02#8) : StepShape s (storeUnder .unchanged (operandAt s) (fetch s))
  | arith {alu : Byte → Byte → AluResult}
      (hop : opAt s = 0x03#8 ∧ alu = aluAdd ∨ opAt s = 0x04#8 ∧ alu = aluSub) :
      StepShape s (arith alu (operandAt s) (fetch s))
  | cmp (hop : opAt s = 0x08#8) : StepShape s (cmpLeaves (operandAt s) (fetch s))
  | jump (hop : JumpOp (opAt s)) : StepShape s (jumpIf (jumpTaken (opAt s) s) (operandAt s) (fetch s))
  | halt (hop : opAt s = 0x07#8) : StepShape s (setRun .halted (fetch s))
  | illegal (hop : ¬ Legal (opAt s)) : StepShape s (takeUnknownOpcode (fetch s))

/-- A jump opcode whose condition of R98 to R106 is `taken`. -/
theorem StepShape.jump_of {s : State} {op : Byte} {taken : Bool} (hop : opAt s = op) (hjump : JumpOp op)
    (htaken : jumpTaken op s = taken) : StepShape s (jumpIf taken (operandAt s) (fetch s)) := by
  subst hop htaken
  exact .jump hjump

/-- A step that answers a next state started from a Running engine and has one of the seven shapes. -/
theorem stepShape_of_step {s t : State} (h : step s = .next t) : s.run = .running ∧ StepShape s t := by
  obtain ⟨hrun, hcases⟩ := step_inversion h
  refine ⟨hrun, ?_⟩
  rcases hcases with ⟨e, rfl⟩ | ⟨e, rfl⟩ | ⟨e, rfl⟩ | ⟨e, rfl⟩ | ⟨e, rfl⟩ | ⟨e, rfl⟩ | ⟨e, rfl⟩ | ⟨e, rfl⟩ | ⟨e, rfl⟩ |
    ⟨e, rfl⟩ | ⟨e, rfl⟩ | ⟨e, rfl⟩ | ⟨e, rfl⟩ | ⟨e, rfl⟩ | ⟨e, rfl⟩
  · exact .load e
  · exact .store e
  · exact .arith (.inl ⟨e, rfl⟩)
  · exact .arith (.inr ⟨e, rfl⟩)
  · exact .jump_of e (by decide) rfl
  · exact .jump_of e (by decide) (by simp [jumpTaken, isZero])
  · exact .halt e
  · exact .cmp e
  · exact .jump_of e (by decide) (by simp [jumpTaken, condLt_eq])
  · exact .jump_of e (by decide) (by simp [jumpTaken, condGt_eq])
  · exact .jump_of e (by decide) (by simp [jumpTaken, condLe_eq])
  · exact .jump_of e (by decide) (by simp [jumpTaken, condGe_eq])
  · exact .jump_of e (by decide) (by simp [jumpTaken, condEq_eq])
  · exact .jump_of e (by decide) (by simp [jumpTaken, condNe_eq])
  · exact .illegal fun hl : Legal (memRead s.mem s.pc) => by omega

/-- A Running engine steps, and the step has one of the seven shapes (R83, R85). -/
theorem step_shape {s : State} (hrun : s.run = .running) : ∃ t, step s = .next t ∧ StepShape s t := by
  obtain ⟨t, ht⟩ := step_next hrun
  exact ⟨t, ht, (stepShape_of_step ht).2⟩

/-- A byte that is no opcode is no data instruction's. -/
theorem not_dataOp_of_not_legal {op : Byte} (h : ¬ Legal op) : ¬ DataOp op := by
  rintro (rfl | rfl | rfl | rfl | rfl) <;> exact h (by decide)

/-- A jump writes PC alone (R97), field by field. -/
@[simp] theorem jumpIf_acc (taken : Bool) (addr : Byte) (s : State) : (jumpIf taken addr s).acc = s.acc := by
  rw [jumpIf_eq]
@[simp] theorem jumpIf_pc (taken : Bool) (addr : Byte) (s : State) :
    (jumpIf taken addr s).pc = if taken then addr else s.pc + 1#8 := by rw [jumpIf_eq]
@[simp] theorem jumpIf_ir (taken : Bool) (addr : Byte) (s : State) : (jumpIf taken addr s).ir = s.ir := by
  rw [jumpIf_eq]
@[simp] theorem jumpIf_mar (taken : Bool) (addr : Byte) (s : State) : (jumpIf taken addr s).mar = s.mar := by
  rw [jumpIf_eq]
@[simp] theorem jumpIf_mbr (taken : Bool) (addr : Byte) (s : State) : (jumpIf taken addr s).mbr = s.mbr := by
  rw [jumpIf_eq]
@[simp] theorem jumpIf_flags (taken : Bool) (addr : Byte) (s : State) : (jumpIf taken addr s).flags = s.flags := by
  rw [jumpIf_eq]
@[simp] theorem jumpIf_mem (taken : Bool) (addr : Byte) (s : State) : (jumpIf taken addr s).mem = s.mem := by
  rw [jumpIf_eq]
@[simp] theorem jumpIf_run (taken : Bool) (addr : Byte) (s : State) : (jumpIf taken addr s).run = s.run := by
  rw [jumpIf_eq]

end Sys2Proof.Machine
end

section
/-! PROOFS. What a whole step writes: RUN, PC, IR, MAR, MBR and ACC (R19 to R23, R28). -/

namespace Sys2Proof.Machine

open Sys2Proof.Claims

/-- RUN after a step: HALT and an illegal byte stop the engine, and nothing else writes RUN. -/
theorem StepShape.run_eq {s t : State} (h : StepShape s t) (hrun : s.run = .running) :
    t.run = if opAt s = 0x07#8 then .halted else if Legal (opAt s) then .running else .faulted (opAt s) := by
  cases h with
  | load hop | store hop | cmp hop => simp [hop, hrun, loadUnder_eq, storeUnder_eq, cmpLeaves]
  | arith hop => obtain ⟨hop, -⟩ | ⟨hop, -⟩ := hop <;> simp [hop, hrun, arith_eq]
  | jump hop => rw [if_neg hop.2.2, if_pos hop.1, jumpIf_run, fetch_run, hrun]
  | halt hop => rw [if_pos hop, setRun_run]
  | illegal hop =>
    have hnot : opAt s ≠ 0x07#8 := fun e => hop (by rw [e]; decide)
    rw [if_neg hnot, if_neg hop, takeUnknownOpcode_run, fetch_ir]

/-- PC after a step (R20), as bytes. -/
theorem StepShape.pc_eq {s t : State} (h : StepShape s t) :
    t.pc = if opAt s = 0x07#8 ∨ ¬ Legal (opAt s) then s.pc + 1#8
      else if jumpTaken (opAt s) s = true then operandAt s else s.pc + 1#8 + 1#8 := by
  cases h with
  | load hop | store hop | cmp hop => simp [hop, jumpTaken, loadUnder_eq, storeUnder_eq, cmpLeaves]
  | arith hop => obtain ⟨hop, -⟩ | ⟨hop, -⟩ := hop <;> simp [hop, jumpTaken, arith_eq]
  | jump hop => rw [if_neg (not_or.mpr ⟨hop.2.2, not_not.mpr hop.1⟩), jumpIf_pc, fetch_pc]
  | halt hop => rw [if_pos (.inl hop), setRun_pc, fetch_pc]
  | illegal hop => rw [if_pos (.inr hop), takeUnknownOpcode_pc, fetch_pc]

/-- IR after a step is the fetched byte (R21). -/
theorem StepShape.ir_eq {s t : State} (h : StepShape s t) : t.ir = opAt s := by
  cases h with
  | jump => rw [jumpIf_ir, fetch_ir]
  | _ => rfl

/-- MAR after a step (R22, D5). -/
theorem StepShape.mar_eq {s t : State} (h : StepShape s t) :
    t.mar = if DataOp (opAt s) then operandAt s else s.pc := by
  cases h with
  | load hop | store hop | cmp hop => simp [hop, loadUnder_eq, storeUnder_eq, cmpLeaves]
  | arith hop => obtain ⟨hop, -⟩ | ⟨hop, -⟩ := hop <;> simp [hop, arith_eq]
  | jump hop => rw [if_neg hop.2.1, jumpIf_mar, fetch_mar]
  | halt hop => simp [hop]
  | illegal hop => rw [if_neg (not_dataOp_of_not_legal hop), takeUnknownOpcode_mar, fetch_mar]

/-- MBR after a step (R23, D4, D5). -/
theorem StepShape.mbr_eq {s t : State} (h : StepShape s t) :
    t.mbr = if DataOp (opAt s) ∧ opAt s ≠ 0x02#8 then dataAt s else opAt s := by
  cases h with
  | load hop | store hop | cmp hop => simp [hop, loadUnder_eq, storeUnder_eq, cmpLeaves]
  | arith hop => obtain ⟨hop, -⟩ | ⟨hop, -⟩ := hop <;> simp [hop, arith_eq]
  | jump hop => rw [if_neg fun hd => hop.2.1 hd.1, jumpIf_mbr, fetch_mbr]
  | halt hop => simp [hop]
  | illegal hop => rw [if_neg fun hd => not_dataOp_of_not_legal hop hd.1, takeUnknownOpcode_mbr, fetch_mbr]

/-- A step without LOAD, ADD and SUB keeps ACC (R19). -/
theorem StepShape.acc_eq {s t : State} (h : StepShape s t) :
    t.acc = s.acc ∨ opAt s = 0x01#8 ∨ opAt s = 0x03#8 ∨ opAt s = 0x04#8 := by
  cases h with
  | load hop => exact .inr (.inl hop)
  | arith hop => exact .inr (.inr (hop.imp And.left And.left))
  | jump => exact .inl (by rw [jumpIf_acc, fetch_acc])
  | store | cmp | halt | illegal => exact .inl rfl

/-- Settles O5: from the one formula for RUN, by whether the byte is HALT's, another opcode or none. -/
theorem runAfterStep : Obligations.RunAfterStep := by
  intro s hrun
  obtain ⟨t, ht, hshape⟩ := step_shape hrun
  refine ⟨t, ht, ?_⟩
  rw [hshape.run_eq hrun]
  by_cases hhalt : opAt s = 0x07#8
  · simp [hhalt]
  · by_cases hlegal : Legal (opAt s)
    · rw [if_neg hhalt, if_pos hlegal]
      simpa [hhalt] using hlegal
    · rw [if_neg hhalt, if_neg hlegal]
      simp [hhalt, hlegal, eq_comm]

/-- Settles O23: PC as a byte, read as a number. -/
theorem pcAfterStep : Obligations.PcAfterStep := by
  intro s hrun
  obtain ⟨t, ht, hshape⟩ := step_shape hrun
  refine ⟨t, ht, ?_⟩
  rw [hshape.pc_eq]
  split_ifs
  · exact BitVec.toNat_add s.pc 1#8
  · rfl
  · rw [BitVec.add_assoc]
    exact BitVec.toNat_add s.pc 2#8

/-- A jump does not read IR. -/
theorem jumpIf_with_ir (taken : Bool) (addr ir : Byte) (s : State) :
    jumpIf taken addr { s with ir := ir } = { jumpIf taken addr s with ir := ir } := by
  cases taken <;> rfl

/-- Every execution phase completes, keeps IR and does not read it (R21). -/
theorem exec_keeps_and_ignores_ir (i : Instr) (s : State) (ir : Byte) :
    ∃ t, exec i s = .next t ∧ t.ir = s.ir ∧ exec i { s with ir := ir } = .next { t with ir := ir } := by
  cases i with
  | load | store | add | sub | cmp | halt => exact ⟨_, rfl, rfl, rfl⟩
  | jump | jzero | jlt | jgt | jle | jge | jeq | jne =>
    exact ⟨_, rfl, jumpIf_ir .., congrArg _ (jumpIf_with_ir ..)⟩

/-- Settles O24: the fetch writes IR, and the execution phases leave it alone. -/
theorem irHoldsTheFetchedByte : Obligations.IrHoldsTheFetchedByte := by
  refine ⟨fun s hrun => ?_, fun s i rest hdecode => ?_, exec_keeps_and_ignores_ir⟩
  · obtain ⟨t, ht, hshape⟩ := step_shape hrun
    exact ⟨t, ht, hshape.ir_eq⟩
  · rw [decodeAndRun, fetchedBytes, hdecode]

/-- Settles O25: MAR in every shape of a step. -/
theorem marAfterStep : Obligations.MarAfterStep := by
  intro s hrun
  obtain ⟨t, ht, hshape⟩ := step_shape hrun
  exact ⟨t, ht, hshape.mar_eq⟩

/-- Settles O26: MBR in every shape of a step. -/
theorem mbrAfterStep : Obligations.MbrAfterStep := by
  intro s hrun
  obtain ⟨t, ht, hshape⟩ := step_shape hrun
  exact ⟨t, ht, hshape.mbr_eq⟩

/-- Settles O27: every other shape keeps ACC. -/
theorem onlyLoadAddSubWriteAcc : Obligations.OnlyLoadAddSubWriteAcc := by
  intro s t h hne
  exact (stepShape_of_step h).2.acc_eq.resolve_left hne

/-- Settles O44: the fetch overwrites IR, MAR and MBR before anything reads them. -/
theorem internalRegistersNeverRead : Obligations.InternalRegistersNeverRead := by
  intro s ir mar mbr hrun
  have hfetch : fetch { s with ir := ir, mar := mar, mbr := mbr } = fetch s := by rw [fetch_eq, fetch_eq]
  calc step { s with ir := ir, mar := mar, mbr := mbr }
      = decodeAndRun exec (fetch { s with ir := ir, mar := mar, mbr := mbr }) := cycle_running hrun
    _ = decodeAndRun exec (fetch s) := by rw [hfetch]
    _ = step s := (cycle_running hrun).symm

end Sys2Proof.Machine
end

section
/-! PROOFS. FLAGS after a step (R25 to R27), and the machine's invariant (R124). -/

namespace Sys2Proof.Machine

open Sys2Proof.Claims

/-- Bits 4 to 7 of a FLAGS byte are 0 (R25), bit by bit. -/
theorem flagsHigh_eq_zero_iff (flags : Byte) :
    flags &&& 0xF0 = 0#8 ↔ ∀ k < 8, 4 ≤ k → flags.getLsbD k = false := by
  revert flags; decide

theorem arithFlags_high_zero (r : AluResult) : arithFlags r &&& 0xF0 = 0#8 := by
  rw [flagsHigh_eq_zero_iff]
  intro k _ hk
  simp [arithFlags_getLsbD, show k ≠ 0 by omega, show k ≠ 1 by omega, show k ≠ 2 by omega, show k ≠ 3 by omega]

theorem cmpFlags_high_zero (x y : Byte) : cmpFlags x y &&& 0xF0 = 0#8 := by
  rw [flagsHigh_eq_zero_iff]
  intro k _ hk
  simp [cmpFlags_getLsbD, show k ≠ 0 by omega, show k ≠ 1 by omega, show k ≠ 3 by omega]

/-- LOAD writes bits 0 and 1 alone (R87). -/
theorem loadFlagsOverwrite_getLsbD_of_two_le (v flags : Byte) {k : Nat} (hk : 2 ≤ k) :
    (loadFlagsOverwrite v flags).getLsbD k = flags.getLsbD k := by
  rw [loadFlagsOverwrite_getLsbD, if_neg (by omega), if_neg (by omega)]

theorem loadFlagsOverwrite_high_zero (v : Byte) {flags : Byte} (h : flags &&& 0xF0 = 0#8) :
    loadFlagsOverwrite v flags &&& 0xF0 = 0#8 := by
  rw [flagsHigh_eq_zero_iff] at h ⊢
  intro k hlt hk
  rw [loadFlagsOverwrite_getLsbD_of_two_le v flags (by omega), h k hlt hk]

/-- No byte is zero and negative: the reason behind R27. -/
theorem not_isZero_and_bit7 (v : Byte) : ¬ (isZero v = true ∧ bit7 v = true) := by
  rw [isZero_eq, bit7_eq, decide_eq_true_iff, decide_eq_true_iff]
  omega

/-- ZERO and NEGATIVE are not both set, in terms of the bits. -/
theorem notZeroAndNegative_iff (s : State) : NotZeroAndNegative s ↔ ¬ (Z s = true ∧ N s = true) := by
  rw [NotZeroAndNegative, flagOn_maskZ, flagOn_maskN]

theorem loadFlagsOverwrite_not_zero_and_negative (v flags : Byte) :
    ¬ ((loadFlagsOverwrite v flags).getLsbD 0 = true ∧ (loadFlagsOverwrite v flags).getLsbD 1 = true) := by
  rw [loadFlagsOverwrite_getLsbD, loadFlagsOverwrite_getLsbD]
  simpa using not_isZero_and_bit7 v

theorem arithFlags_not_zero_and_negative (r : AluResult) :
    ¬ ((arithFlags r).getLsbD 0 = true ∧ (arithFlags r).getLsbD 1 = true) := by
  rw [arithFlags_getLsbD, arithFlags_getLsbD]
  simpa using not_isZero_and_bit7 r.result

theorem cmpFlags_not_zero_and_negative (x y : Byte) :
    ¬ ((cmpFlags x y).getLsbD 0 = true ∧ (cmpFlags x y).getLsbD 1 = true) := by
  rw [cmpFlags_getLsbD, cmpFlags_getLsbD]
  have hexcl : ¬ (intOf x - intOf y = 0 ∧ intOf x - intOf y < 0) := by omega
  simpa using hexcl

/-- A step without LOAD, ADD, SUB and CMP keeps FLAGS (R26). -/
theorem StepShape.flags_eq {s t : State} (h : StepShape s t) :
    t.flags = s.flags ∨ opAt s = 0x01#8 ∨ opAt s = 0x03#8 ∨ opAt s = 0x04#8 ∨ opAt s = 0x08#8 := by
  cases h with
  | load hop => exact .inr (.inl hop)
  | arith hop => obtain ⟨hop, -⟩ | ⟨hop, -⟩ := hop <;> simp [hop]
  | cmp hop => exact .inr (.inr (.inr (.inr hop)))
  | jump => exact .inl (by rw [jumpIf_flags, fetch_flags])
  | store | halt | illegal => exact .inl rfl

/-- FLAGS after the step of a LOAD (R87) and of a CMP (R95). -/
theorem flags_of_step_load {s t : State} (h : step s = .next t) (hop : opAt s = 0x01#8) :
    t.flags = loadFlagsOverwrite (dataAt s) s.flags := by
  rw [step_load (step_cases h).1 hop] at h
  cases h; rfl

theorem flags_of_step_cmp {s t : State} (h : step s = .next t) (hop : opAt s = 0x08#8) :
    t.flags = cmpFlags s.acc (dataAt s) := by
  rw [step_cmp (step_cases h).1 hop] at h
  cases h; rfl

/-- A step leaves bits 4 to 7 of FLAGS zero if they were. -/
theorem StepShape.flagsHighZero {s t : State} (h : StepShape s t) (hs : FlagsHighZero s) : FlagsHighZero t := by
  cases h with
  | load => exact loadFlagsOverwrite_high_zero _ hs
  | arith => exact arithFlags_high_zero _
  | cmp => exact cmpFlags_high_zero ..
  | jump => rwa [FlagsHighZero, jumpIf_flags, fetch_flags]
  | store | halt | illegal => exact hs

/-- A step leaves Z and N not both set if they were not (D3). -/
theorem StepShape.notZeroAndNegative {s t : State} (h : StepShape s t) (hs : NotZeroAndNegative s) :
    NotZeroAndNegative t := by
  rw [notZeroAndNegative_iff] at hs ⊢
  cases h with
  | load => exact loadFlagsOverwrite_not_zero_and_negative _ _
  | arith => exact arithFlags_not_zero_and_negative _
  | cmp => exact cmpFlags_not_zero_and_negative _ _
  | jump => rwa [Z, N, jumpIf_flags, fetch_flags]
  | store | halt | illegal => exact hs

/-- A step leaves memory canonical: STORE is the one writer, through `memWrite`. -/
theorem StepShape.mem_wf {s t : State} (h : StepShape s t) (hs : Memory.wf s.mem = true) :
    Memory.wf t.mem = true := by
  cases h with
  | store => exact memWrite_wf hs ..
  | jump => rwa [jumpIf_mem, fetch_mem]
  | load | arith | cmp | halt | illegal => exact hs

/-- The length rule of R49 has no length exactly for an illegal byte. -/
theorem encodingLength_eq_none_iff (op : Byte) : encodingLength op = none ↔ ¬ Legal op := by
  revert op; decide

theorem stoppedCoherent_of_running {s : State} (h : s.run = .running) : stoppedCoherent s = true := by
  rw [stoppedCoherent, h]

/-- A step that stops the engine leaves the fetch showing (R108, R109). -/
theorem StepShape.leaves_stoppedCoherent {s t : State} (h : StepShape s t) (hrun : s.run = .running) :
    stoppedCoherent t = true := by
  cases h with
  | load | store | arith | cmp => exact stoppedCoherent_of_running hrun
  | jump => exact stoppedCoherent_of_running (by rw [jumpIf_run, fetch_run, hrun])
  | halt hop => simp [stoppedCoherent, hop]
  | illegal hop => simp [stoppedCoherent, (encodingLength_eq_none_iff _).mpr hop]

/-- Settles O28: FLAGS by the shape of the step, with LOAD's and CMP's formula for their bits. -/
theorem flagsWriters : Obligations.FlagsWriters := by
  intro s t h
  have hshape := (stepShape_of_step h).2
  refine ⟨hshape.flags_eq.resolve_left, fun hload k hk => ?_, fun hcmp => ?_, hshape.flagsHighZero⟩
  · rw [flags_of_step_load h hload, loadFlagsOverwrite_getLsbD_of_two_le _ _ hk]
  · rw [C, flags_of_step_cmp h hcmp, cmpFlags_getLsbD]
    rfl

/-- Settles O42: or_in keeps N beside the Z of the loaded 0, and overwrite makes both functions of one byte. -/
theorem orInReachesZeroAndNegative : Obligations.OrInReachesZeroAndNegative := by
  refine ⟨fun addr s hzero hneg => ?_, fun addr s => ?_⟩
  · have hflags : (loadUnder .orIn addr s).flags = loadFlagsOrIn 0x00#8 s.flags := by rw [← hzero]; rfl
    rw [Z, N, hflags, loadFlagsOrIn_getLsbD, loadFlagsOrIn_getLsbD, show s.flags.getLsbD 1 = true from hneg]
    simp [isZero]
  · exact loadFlagsOverwrite_not_zero_and_negative _ _

/-- Settles O39: the reset state has an empty memory, clear FLAGS and a Running engine. -/
theorem resetMeetsInvariant : Obligations.ResetMeetsInvariant :=
  ⟨wf_nil, rfl, by decide, stoppedCoherent_of_running State.reset_run⟩

/-- Settles O40: each part of the invariant is kept by every shape of a step. -/
theorem stepKeepsInvariant : Obligations.StepKeepsInvariant := by
  rintro s t ⟨hmem, hhigh, hzn, -⟩ h
  obtain ⟨hrun, hshape⟩ := stepShape_of_step h
  exact ⟨hshape.mem_wf hmem, hshape.flagsHighZero hhigh, hshape.notZeroAndNegative hzn, hshape.leaves_stoppedCoherent hrun⟩

/-- All that a transaction can do to the engine (R122, R125 to R127). -/
theorem transact_cases {tr : Transaction} {s t : State} {r : Reply} (h : transact tr s = .next (t, r)) :
    t = State.reset ∨ step s = .next t ∨ (∃ image, t = loadImage image s) ∨ t = s := by
  cases tr with
  | reset => cases h; exact .inl rfl
  | step =>
    simp only [transact] at h
    split at h
    next u hu => cases h; exact .inr (.inl hu)
    all_goals cases h
  | loadImage image => cases h; exact .inr (.inr (.inl ⟨image, rfl⟩))
  | observe => cases h; exact .inr (.inr (.inr rfl))

/-- LOAD_IMAGE keeps the invariant: its memory is canonical, and registers and RUN stay (R125, D7). -/
theorem loadImage_keeps_invariant {s : State} (image : Image) (h : EngineInv s) : EngineInv (loadImage image s) :=
  ⟨cellsOf_wf image, h.2⟩

/-- Settles O41, by induction on how the state was reached. -/
theorem reachableStatesMeetInvariant : Obligations.ReachableStatesMeetInvariant := by
  intro s h
  induction h with
  | construction => exact resetMeetsInvariant
  | transaction _ htr ih =>
    rcases transact_cases htr with rfl | hstep | ⟨image, rfl⟩ | rfl
    · exact resetMeetsInvariant
    · exact stepKeepsInvariant _ _ ih hstep
    · exact loadImage_keeps_invariant image ih
    · exact ih

end Sys2Proof.Machine
end

section
/-! PROOFS. What runs of any length do not depend on: C, V and bits 4 to 7 of FLAGS (R26), and the value of P_STORE_MBR
but for MBR (D4). Both are one lockstep simulation of two machines under a relation of their states. -/

namespace Sys2Proof.Machine

open Sys2Proof.Claims

/-- The machine with execution phase `ex'` follows the one with `ex`: related states fetch and decode alike, and every
execution phase of the first is matched by the second. -/
structure LockstepSimulation (R : State → State → Prop)
    (ex ex' : Instr → State → Host.Outcome State Fault Refusal) : Prop where
  run_eq : ∀ {s s'}, R s s' → s'.run = s.run
  fetched : ∀ {s s'}, R s s' → R (fetch s) (fetch s')
  bytes_eq : ∀ {s s'}, R s s' → fetchedBytes (fetch s') = fetchedBytes (fetch s)
  unknown : ∀ {s s'}, R s s' → R (takeUnknownOpcode s) (takeUnknownOpcode s')
  executed : ∀ {s s'} i t, R s s' → ex i s = .next t → ∃ t', ex' i s' = .next t' ∧ R t t'

/-- Related states take related steps. -/
theorem LockstepSimulation.cycle_next {R : State → State → Prop}
    {ex ex' : Instr → State → Host.Outcome State Fault Refusal}
    (sim : LockstepSimulation R ex ex') {s s' t : State} (hR : R s s') (h : cycle ex s = .next t) :
    ∃ t', cycle ex' s' = .next t' ∧ R t t' := by
  obtain ⟨hrun, ⟨i, rest, hdecode, hex⟩ | ⟨e, hdecode, rfl⟩⟩ := cycle_cases h
  all_goals
    rw [cycle_running ((sim.run_eq hR).trans hrun), decodeAndRun, sim.bytes_eq hR, hdecode]
  · exact sim.executed i t (sim.fetched hR) hex
  · exact ⟨_, rfl, sim.unknown (sim.fetched hR)⟩

/-- Related states have related runs of any length. -/
theorem LockstepSimulation.runUnder_next {R : State → State → Prop} {p q : Config.Params}
    (sim : LockstepSimulation R (execUnder p) (execUnder q)) {k : Nat} {s s' t : State} (hR : R s s')
    (h : runUnder p k s = .next t) : ∃ t', runUnder q k s' = .next t' ∧ R t t' := by
  induction k generalizing s s' with
  | zero => exact ⟨s', rfl, Host.Outcome.next.inj h ▸ hR⟩
  | succ k ih =>
    rw [runUnder] at h ⊢
    cases hstep : stepUnder p s with
    | next u =>
      obtain ⟨u', hstep', hR'⟩ := sim.cycle_next hR hstep
      rw [hstep] at h
      rw [show stepUnder q s' = .next u' from hstep']
      exact ih hR' h
    | fault r => rw [hstep] at h; cases h
    | refused r => rw [hstep] at h; cases h

/-- The host's run of the machine is the run under the decided parameters. -/
theorem core_run_eq_runUnder (k : Nat) (s : State) : core.run k s = runUnder decided k s := by
  induction k generalizing s with
  | zero => rfl
  | succ k ih =>
    rw [core_run_succ, runUnder, decidedParametersGiveStep s]
    cases step s with
    | next t => exact ih t
    | fault r => rfl
    | refused r => rfl

/-! ## C, V and bits 4 to 7 of FLAGS -/

/-- The relation as an update of FLAGS that keeps bits 0 and 1. -/
theorem sameButCarryOverflow_iff {s s' : State} :
    SameButCarryOverflow s s' ↔ ∃ flags, s' = { s with flags := flags } ∧
      s.flags.getLsbD 0 = flags.getLsbD 0 ∧ s.flags.getLsbD 1 = flags.getLsbD 1 := by
  constructor
  · rintro ⟨hacc, hpc, hir, hmar, hmbr, hmem, hrun, hz, hn⟩
    exact ⟨s'.flags, State.ext_fields hacc.symm hpc.symm hir.symm hmar.symm hmbr.symm rfl hmem.symm hrun.symm, hz, hn⟩
  · rintro ⟨flags, rfl, hz, hn⟩
    exact ⟨rfl, rfl, rfl, rfl, rfl, rfl, rfl, hz, hn⟩

theorem sameButCarryOverflow_refl (s : State) : SameButCarryOverflow s s :=
  sameButCarryOverflow_iff.mpr ⟨s.flags, rfl, rfl, rfl⟩

/-- A jump taken alike keeps the relation. -/
theorem sameButCarryOverflow_jumpIf {s s' : State} {taken taken' : Bool} (h : SameButCarryOverflow s s')
    (htaken : taken' = taken) (addr : Byte) : SameButCarryOverflow (jumpIf taken addr s) (jumpIf taken' addr s') := by
  obtain ⟨flags, rfl, hz, hn⟩ := sameButCarryOverflow_iff.mp h
  rw [htaken, jumpIf_eq, jumpIf_eq]
  exact sameButCarryOverflow_iff.mpr ⟨flags, rfl, hz, hn⟩

/-- LOAD keeps the relation: Z and N become functions of the loaded byte. -/
theorem sameButCarryOverflow_load {s s' : State} (h : SameButCarryOverflow s s') (addr : Byte) :
    SameButCarryOverflow (loadUnder .overwrite addr s) (loadUnder .overwrite addr s') := by
  obtain ⟨flags, rfl, -, -⟩ := sameButCarryOverflow_iff.mp h
  refine sameButCarryOverflow_iff.mpr ⟨loadFlagsOverwrite (memRead s.mem addr) flags, rfl, ?_, ?_⟩ <;>
    simp only [loadUnder_eq, loadFlags, loadFlagsOverwrite_getLsbD] <;> rfl

/-- No execution phase reads bits 2 to 7 of FLAGS into anything else: ADD, SUB and CMP do not read FLAGS at all, and the
jumps read Z and N. -/
theorem exec_keeps_sameButCarryOverflow {s s' t : State} (i : Instr) (h : SameButCarryOverflow s s')
    (hex : exec i s = .next t) : ∃ t', exec i s' = .next t' ∧ SameButCarryOverflow t t' := by
  obtain ⟨flags, rfl, hz, hn⟩ := sameButCarryOverflow_iff.mp h
  cases i with
  | load addr => cases hex; exact ⟨_, rfl, sameButCarryOverflow_load h addr⟩
  | add | sub | cmp => exact ⟨t, hex, sameButCarryOverflow_refl t⟩
  | store | halt => cases hex; exact ⟨_, rfl, sameButCarryOverflow_iff.mpr ⟨flags, rfl, hz, hn⟩⟩
  | jump addr | jzero addr => cases hex; exact ⟨_, rfl, sameButCarryOverflow_jumpIf h rfl addr⟩
  | jlt addr => cases hex; exact ⟨_, rfl, sameButCarryOverflow_jumpIf h (by rw [condLt_eq, condLt_eq, hn]) addr⟩
  | jgt addr => cases hex; exact ⟨_, rfl, sameButCarryOverflow_jumpIf h (by rw [condGt_eq, condGt_eq, hz, hn]) addr⟩
  | jle addr => cases hex; exact ⟨_, rfl, sameButCarryOverflow_jumpIf h (by rw [condLe_eq, condLe_eq, hz, hn]) addr⟩
  | jge addr => cases hex; exact ⟨_, rfl, sameButCarryOverflow_jumpIf h (by rw [condGe_eq, condGe_eq, hn]) addr⟩
  | jeq addr => cases hex; exact ⟨_, rfl, sameButCarryOverflow_jumpIf h (by rw [condEq_eq, condEq_eq, hz]) addr⟩
  | jne addr => cases hex; exact ⟨_, rfl, sameButCarryOverflow_jumpIf h (by rw [condNe_eq, condNe_eq, hz]) addr⟩

/-- Bits 2 to 7 of FLAGS are no input of the machine. -/
theorem sameButCarryOverflow_simulation :
    LockstepSimulation SameButCarryOverflow (execUnder decided) (execUnder decided) where
  run_eq h := by
    obtain ⟨flags, rfl, -, -⟩ := sameButCarryOverflow_iff.mp h
    rfl
  fetched h := by
    obtain ⟨flags, rfl, hz, hn⟩ := sameButCarryOverflow_iff.mp h
    exact sameButCarryOverflow_iff.mpr ⟨flags, rfl, hz, hn⟩
  bytes_eq h := by
    obtain ⟨flags, rfl, -, -⟩ := sameButCarryOverflow_iff.mp h
    rfl
  unknown h := by
    obtain ⟨flags, rfl, hz, hn⟩ := sameButCarryOverflow_iff.mp h
    exact sameButCarryOverflow_iff.mpr ⟨flags, rfl, hz, hn⟩
  executed i t h hex := by
    simp only [execUnder_decided] at hex ⊢
    exact exec_keeps_sameButCarryOverflow i h hex

/-- Settles O43: the simulation, along the run. -/
theorem carryAndOverflowNeverRead : Obligations.CarryAndOverflowNeverRead := by
  intro k s s' t h hrun
  rw [core_run_eq_runUnder] at hrun
  obtain ⟨t', hrun', h'⟩ := sameButCarryOverflow_simulation.runUnder_next h hrun
  exact ⟨t', (core_run_eq_runUnder k s').trans hrun', h'⟩

/-! ## P_STORE_MBR -/

/-- Two states that differ at most in MBR. -/
def SameButMbr (s s' : State) : Prop := ∃ mbr, s' = { s with mbr := mbr }

/-- A jump does not read MBR. -/
theorem jumpIf_with_mbr (taken : Bool) (addr mbr : Byte) (s : State) :
    jumpIf taken addr { s with mbr := mbr } = { jumpIf taken addr s with mbr := mbr } := by
  cases taken <;> rfl

/-- Under either value of P_STORE_MBR an execution phase leaves the same but for MBR, from states that are the same but
for MBR: LOAD, ADD, SUB and CMP write MBR before they read it, and nothing else reads it. -/
theorem execUnder_keeps_sameButMbr {p q : Config.Params} (hload : p.loadZn = q.loadZn) {s s' t : State} (i : Instr)
    (h : SameButMbr s s') (hex : execUnder p i s = .next t) : ∃ t', execUnder q i s' = .next t' ∧ SameButMbr t t' := by
  obtain ⟨mbr, rfl⟩ := h
  cases i with
  | load addr =>
    rw [execUnder, hload] at hex
    exact ⟨t, hex, t.mbr, rfl⟩
  | store addr =>
    cases hex
    exact ⟨_, rfl, _, by rw [storeUnder_eq, storeUnder_eq]⟩
  | add | sub | cmp => exact ⟨t, hex, t.mbr, rfl⟩
  | halt => cases hex; exact ⟨_, rfl, mbr, rfl⟩
  | jump | jzero | jlt | jgt | jle | jge | jeq | jne => cases hex; exact ⟨_, rfl, mbr, jumpIf_with_mbr ..⟩

/-- MBR is no input of the machine: the choice of P_STORE_MBR stays in it. -/
theorem sameButMbr_simulation {p q : Config.Params} (hload : p.loadZn = q.loadZn) :
    LockstepSimulation SameButMbr (execUnder p) (execUnder q) where
  run_eq h := by obtain ⟨mbr, rfl⟩ := h; rfl
  fetched {s _} h := by obtain ⟨mbr, rfl⟩ := h; exact ⟨(fetch s).mbr, rfl⟩
  bytes_eq h := by obtain ⟨mbr, rfl⟩ := h; rfl
  unknown h := by obtain ⟨mbr, rfl⟩ := h; exact ⟨mbr, rfl⟩
  executed i _ := execUnder_keeps_sameButMbr hload i

/-- Settles O45: the simulation, along the run from one state. -/
theorem storeMbrChoiceShowsOnlyInMbr : Obligations.StoreMbrChoiceShowsOnlyInMbr := by
  intro p q k s t hload hrun
  obtain ⟨t', hrun', mbr, rfl⟩ := (sameButMbr_simulation hload).runUnder_next ⟨s.mbr, rfl⟩ hrun
  exact ⟨_, hrun', rfl⟩

end Sys2Proof.Machine
end

section
/-! PROOFS. Who writes memory, and what a later fetch sees of a STORE (R35, R46). -/

namespace Sys2Proof.Machine

open Sys2Proof.Claims

/-- Memory after a step (R35): STORE writes ACC to the operand's cell, and no other shape writes memory. -/
theorem StepShape.mem_eq {s t : State} (h : StepShape s t) :
    t.mem = if opAt s = 0x02#8 then memWrite s.mem (operandAt s) s.acc else s.mem := by
  cases h with
  | store hop => simp [hop, storeUnder_eq]
  | load hop | cmp hop => simp [hop, loadUnder_eq, cmpLeaves]
  | arith hop => obtain ⟨hop, -⟩ | ⟨hop, -⟩ := hop <;> simp [hop, arith_eq]
  | jump hop =>
    have hnot : opAt s ≠ 0x02#8 := fun e => hop.2.1 (.inr (.inl e))
    rw [if_neg hnot, jumpIf_mem, fetch_mem]
  | halt hop => simp [hop]
  | illegal hop =>
    have hnot : opAt s ≠ 0x02#8 := fun e => hop (by rw [e]; decide)
    rw [if_neg hnot, takeUnknownOpcode_mem, fetch_mem]

/-- A step that changes memory ran STORE. -/
theorem opAt_eq_store_of_mem_ne {s t : State} (h : step s = .next t) (hne : t.mem ≠ s.mem) : opAt s = 0x02#8 := by
  by_contra hop
  exact hne (by rw [(stepShape_of_step h).2.mem_eq, if_neg hop])

/-- The memory a STORE leaves. -/
theorem mem_of_step_store {s t : State} (h : step s = .next t) (hop : opAt s = 0x02#8) :
    t.mem = memWrite s.mem (operandAt s) s.acc := by
  rw [(stepShape_of_step h).2.mem_eq, if_pos hop]

/-- After a STORE the operand's cell reads as ACC. -/
theorem memRead_operandAt_of_step_store {s t : State} (hwf : Memory.wf s.mem = true) (h : step s = .next t)
    (hop : opAt s = 0x02#8) : memRead t.mem (operandAt s) = s.acc := by
  rw [mem_of_step_store h hop, memRead_memWrite_same hwf]

/-- A STORE keeps ACC. -/
theorem acc_of_step_store {s t : State} (h : step s = .next t) (hop : opAt s = 0x02#8) : t.acc = s.acc :=
  (stepShape_of_step h).2.acc_eq.resolve_right (by rw [hop]; decide)

/-- The one cell a step can change is the operand's, and it then holds ACC. -/
theorem changed_cell_of_step {s t : State} {a : Byte} (hwf : Memory.wf s.mem = true) (h : step s = .next t)
    (hne : memRead t.mem a ≠ memRead s.mem a) : a = operandAt s ∧ memRead t.mem a = s.acc := by
  have hop : opAt s = 0x02#8 := opAt_eq_store_of_mem_ne h fun e => hne (by rw [e])
  have ha : a = operandAt s := by
    by_contra ha
    exact hne (by rw [mem_of_step_store h hop, memRead_memWrite_of_ne _ _ ha])
  exact ⟨ha, ha ▸ memRead_operandAt_of_step_store hwf h hop⟩

/-- OBSERVE keeps the whole state (R127), and each other transaction may write memory. -/
theorem transaction_of_mem_ne {tr : Transaction} {s t : State} {r : Reply} (h : transact tr s = .next (t, r))
    (hne : t.mem ≠ s.mem) : tr = .step ∨ tr = .reset ∨ ∃ image, tr = .loadImage image := by
  cases tr with
  | step => exact .inl rfl
  | reset => exact .inr (.inl rfl)
  | loadImage image => exact .inr (.inr ⟨image, rfl⟩)
  | observe =>
    cases h
    exact absurd rfl hne

/-- Settles O29: the memory laws for one write, and memory after a step or a transaction. -/
theorem onlyStoreWritesMemory : Obligations.OnlyStoreWritesMemory :=
  ⟨fun m a v hwf => ⟨memRead_memWrite_same hwf a v, fun _ => memRead_memWrite_of_ne m v⟩,
    fun _ _ => opAt_eq_store_of_mem_ne,
    fun _ _ _ => changed_cell_of_step,
    fun _ _ _ _ => transaction_of_mem_ne⟩

/-- Settles O30: a fetch and an operand fetch are reads of the memory the STORE left. -/
theorem storeSeenByLaterFetch : Obligations.StoreSeenByLaterFetch := by
  intro s t hwf hop h
  have hread : memRead t.mem (operandAt s) = s.acc := memRead_operandAt_of_step_store hwf h hop
  refine ⟨acc_of_step_store h hop, hread, fun u hmem => ⟨fun hpc => ?_, fun hpc => ?_⟩⟩
  · rw [fetch_ir, hmem, hpc, hread]
  · rw [fetchedBytes, fetch_ir, fetch_mem, fetch_pc, hmem, hpc, hread]

end Sys2Proof.Machine
end

section
/-! PROOFS. The decoder and the encoder (R48 to R55): all that the decoder can answer, and that the two are inverse. -/

namespace Sys2Proof

open Sys2Proof.Machine Sys2Proof.Claims

/-- All that the decoder can answer, by the byte string. -/
inductive DecodeShape : List Byte → Except DecodeError (Instr × List Byte) → Prop
  | noBytes : DecodeShape [] (.error .noBytes)
  | illegal {op : Byte} (rest : List Byte) (hop : op.toNat = 0 ∨ 15 ≤ op.toNat) :
      DecodeShape (op :: rest) (.error (.unknownOpcode op))
  | missingOperand {op : Byte} (hop : Legal op ∧ op ≠ 0x07#8) : DecodeShape [op] (.error .missingOperand)
  | instr (i : Instr) (rest : List Byte) : DecodeShape (encode i ++ rest) (.ok (i, rest))

/-- An opcode of format OP2 (R48): the operand is there, or it is missing. -/
theorem decodeShape_op2 {op : Byte} {mk : Byte → Instr} (hop : Legal op ∧ op ≠ 0x07#8)
    (hencode : ∀ a, encode (mk a) = [op, a]) (rest : List Byte) : DecodeShape (op :: rest) (decodeOp2 mk rest) := by
  cases rest with
  | nil => exact .missingOperand hop
  | cons a rest =>
    have h := DecodeShape.instr (mk a) rest
    rwa [hencode] at h

/-- The decoder's answer on any byte string, by its opcode byte. -/
theorem decode_shape (bytes : List Byte) : DecodeShape bytes (decode bytes) := by
  cases bytes with
  | nil => exact .noBytes
  | cons op rest =>
    rcases opcode_cases op with rfl | rfl | rfl | rfl | rfl | rfl | rfl | rfl | rfl | rfl | rfl | rfl | rfl | rfl | hop
    · exact decodeShape_op2 (mk := .load) (by decide) (fun _ => rfl) rest
    · exact decodeShape_op2 (mk := .store) (by decide) (fun _ => rfl) rest
    · exact decodeShape_op2 (mk := .add) (by decide) (fun _ => rfl) rest
    · exact decodeShape_op2 (mk := .sub) (by decide) (fun _ => rfl) rest
    · exact decodeShape_op2 (mk := .jump) (by decide) (fun _ => rfl) rest
    · exact decodeShape_op2 (mk := .jzero) (by decide) (fun _ => rfl) rest
    · exact .instr .halt rest
    · exact decodeShape_op2 (mk := .cmp) (by decide) (fun _ => rfl) rest
    · exact decodeShape_op2 (mk := .jlt) (by decide) (fun _ => rfl) rest
    · exact decodeShape_op2 (mk := .jgt) (by decide) (fun _ => rfl) rest
    · exact decodeShape_op2 (mk := .jle) (by decide) (fun _ => rfl) rest
    · exact decodeShape_op2 (mk := .jge) (by decide) (fun _ => rfl) rest
    · exact decodeShape_op2 (mk := .jeq) (by decide) (fun _ => rfl) rest
    · exact decodeShape_op2 (mk := .jne) (by decide) (fun _ => rfl) rest
    · rw [decode_illegal rest hop]
      exact .illegal rest hop

/-- What follows an encoding is left over (R48, R50). -/
theorem decode_encode_append (i : Instr) (rest : List Byte) : decode (encode i ++ rest) = .ok (i, rest) := by
  cases i <;> rfl

/-- An encoding decodes with nothing left over. -/
theorem decode_encode (i : Instr) : decode (encode i) = .ok (i, []) := by
  simpa using decode_encode_append i []

/-- Settles O33: each constructor's opcode byte is the one its arm of the decoder reads. -/
theorem decodeEncodeRoundTrip : Obligations.DecodeEncodeRoundTrip :=
  fun i rest _ => decode_encode_append i rest

/-- Settles O34: an answer with an instruction has the shape of an encoding and the rest. -/
theorem encodeDecodeRoundTrip : Obligations.EncodeDecodeRoundTrip := by
  intro bytes i rest h
  have hshape := decode_shape bytes
  rw [h] at hshape
  cases hshape with
  | instr => rfl

/-- The decoder names UnknownOpcode only for an illegal first byte. -/
theorem decode_eq_unknownOpcode_iff {bytes : List Byte} {v : Byte} :
    decode bytes = .error (.unknownOpcode v) ↔ ∃ rest, bytes = v :: rest ∧ (v.toNat = 0 ∨ 15 ≤ v.toNat) := by
  constructor
  · intro h
    have hshape := decode_shape bytes
    rw [h] at hshape
    cases hshape with
    | illegal rest hop => exact ⟨rest, rfl, hop⟩
  · rintro ⟨rest, rfl, hop⟩
    exact decode_illegal rest hop

/-- The encoder's bytes are one whole instruction by the length rule of R49. -/
theorem encodingWellFormed_encode (i : Instr) : encodingWellFormed (encode i) = true := by
  cases i <;> rfl

/-- The length rule leaves no room for bytes after an encoding. -/
theorem encodingWellFormed_encode_append {i : Instr} {rest : List Byte}
    (h : encodingWellFormed (encode i ++ rest) = true) : rest = [] := by
  cases i <;> simpa [encode, encodingWellFormed, encodingLength] using h

/-- The length rule of R49 for format OP2. -/
theorem encodingLength_op2 {op : Byte} (hop : Legal op ∧ op ≠ 0x07#8) : encodingLength op = some 2 := by
  revert op; decide

/-- Settles O36: of the decoder's four answers, only an instruction with no rest has the length of R49. -/
theorem decoderAcceptsExactlyCompleteEncodings : Obligations.DecoderAcceptsExactlyCompleteEncodings := by
  refine fun bytes => ⟨fun ⟨i, h⟩ => ?_, fun h => ?_⟩
  · rw [← encodeDecodeRoundTrip bytes i [] h, List.append_nil]
    exact encodingWellFormed_encode i
  · have hshape := decode_shape bytes
    generalize decode bytes = answer at hshape ⊢
    cases hshape with
    | noBytes => cases h
    | @illegal op rest hop =>
      have hnone := (encodingLength_eq_none_iff op).mpr fun hlegal : Legal op => by omega
      simp [encodingWellFormed, hnone] at h
    | missingOperand hop => simp [encodingWellFormed, encodingLength_op2 hop] at h
    | instr i rest => exact ⟨i, by rw [encodingWellFormed_encode_append h]⟩

/-- The bytes of a 16-bit word, numbered as the opcode table numbers them (log entry 1). -/
theorem tableBytes_op2 (op addr : Byte) : tableBytes 16 (op.toNat * 256 + addr.toNat) = [op, addr] := by
  have hop : BitVec.ofNat 8 ((op.toNat * 256 + addr.toNat) / 256) = op := by
    apply BitVec.eq_of_toNat_eq
    have := addr.isLt
    have := op.isLt
    rw [BitVec.toNat_ofNat]; omega
  have haddr : BitVec.ofNat 8 (op.toNat * 256 + addr.toNat) = addr := by
    apply BitVec.eq_of_toNat_eq
    have := addr.isLt
    rw [BitVec.toNat_ofNat]; omega
  simp [tableBytes, wordBytes, hop, haddr]

/-- Settles O38: the word's bytes are the encoding, which decodes. -/
theorem opcodeTableWordsDecode : Obligations.OpcodeTableWordsDecode := by
  refine ⟨fun i op addr hencode => ?_, rfl⟩
  rw [decodeTableWord, tableBytes_op2, ← hencode, decode_encode]

/-- Settles O37: the seven words are encodings, HALT's with a byte after it. -/
theorem writtenOutWordsDecode : Obligations.WrittenOutWordsDecode :=
  ⟨decode_encode (.load 10), decode_encode (.store 12), decode_encode (.sub 31), decode_encode (.cmp 255),
    decode_encode (.jzero 16), decode_encode (.jne 128), decode_encode_append .halt [0x99#8]⟩

end Sys2Proof

namespace Sys2Proof.Machine

open Sys2Proof.Claims

/-- A step's STATUS is RUN of the state it left (R83). -/
theorem transact_step_of_step {s t : State} (h : step s = .next t) :
    transact .step s = .next (t, .status (statusOf t.run)) := by
  rw [transact, h]

/-- Settles O35: the decoder's two ways to refuse a byte, and the step of such a byte. -/
theorem decoderRefusesExactlyIllegalBytes : Obligations.DecoderRefusesExactlyIllegalBytes :=
  ⟨fun _ _ => decode_eq_unknownOpcode_iff, rfl,
    fun _ hrun hop => ⟨_, transact_step_of_step (step_illegal hrun hop)⟩⟩

/-- One row of R50, from its mnemonic's opcode and its instruction's bytes. -/
theorem opcodeMap_row {name : Text} {op : Byte} {i : Instr} {bytes : List Byte} (hop : opcodeOf name = some op)
    (hencode : encode i = bytes) : opcodeOf name = some op ∧ encode i = bytes ∧ decode bytes = .ok (i, []) :=
  ⟨hop, hencode, hencode ▸ decode_encode i⟩

/-- Settles O32, row by row. -/
theorem opcodeMap_holds : Obligations.OpcodeMap := fun _ =>
  ⟨opcodeMap_row rfl rfl, opcodeMap_row rfl rfl, opcodeMap_row rfl rfl, opcodeMap_row rfl rfl, opcodeMap_row rfl rfl,
    opcodeMap_row rfl rfl, opcodeMap_row rfl rfl, opcodeMap_row rfl rfl, opcodeMap_row rfl rfl, opcodeMap_row rfl rfl,
    opcodeMap_row rfl rfl, opcodeMap_row rfl rfl, opcodeMap_row rfl rfl, opcodeMap_row rfl rfl⟩

end Sys2Proof.Machine
end

section
/-! PROOFS. The assembler's actions (R59 to R73): what a line does, an invariant for every line at once, the first error
that ends an assembly, and what assembly leaves in the engine. -/

namespace Sys2Proof.Machine

/-- A read after a write, at any address of a canonical list. -/
theorem cellRead_cellWrite {m : Memory} {lo : Nat} (hwf : memoryWfFrom lo m = true) (a : Nat) (v : Byte) (c : Nat) :
    cellRead (cellWrite m a v) c = if c = a then v else cellRead m c := by
  split_ifs with h
  · rw [h, cellRead_cellWrite_same hwf]
  · exact cellRead_cellWrite_of_ne m v h

/-! ## Writing a byte -/

/-- The assembler's record with one byte written at the cursor (R71, R77). -/
def AsmState.push (b : Byte) (st : AsmState) : AsmState :=
  { cursor := st.cursor + 1, mem := cellWrite st.mem st.cursor b, trace := st.trace ++ [hexByte b] }

@[simp] theorem AsmState.push_cursor (b : Byte) (st : AsmState) : (st.push b).cursor = st.cursor + 1 := rfl
@[simp] theorem AsmState.push_mem (b : Byte) (st : AsmState) :
    (st.push b).mem = cellWrite st.mem st.cursor b := rfl
@[simp] theorem AsmState.push_trace (b : Byte) (st : AsmState) : (st.push b).trace = st.trace ++ [hexByte b] := rfl

theorem emit_of_lt {st : AsmState} (h : st.cursor < 256) (line : Nat) (b : Byte) :
    emit line b st = .ok (st.push b) := if_pos h

theorem emit_of_ge {st : AsmState} (h : 256 ≤ st.cursor) (line : Nat) (b : Byte) :
    emit line b st = .error ⟨.cursorOverflow line, st.mem⟩ := if_neg (Nat.not_lt.mpr h)

/-- All that a write can do. -/
theorem emit_eq_ok_iff {line : Nat} {b : Byte} {st st' : AsmState} :
    emit line b st = .ok st' ↔ st.cursor < 256 ∧ st' = st.push b := by
  by_cases h : st.cursor < 256
  · simp [emit_of_lt h, h, eq_comm]
  · simp [emit_of_ge (Nat.not_lt.mp h), h]

theorem byteOf_of_range {v : Int} (h0 : 0 ≤ v) (h255 : v ≤ 255) : byteOf v = some (BitVec.ofInt 8 v) :=
  if_pos ⟨h0, h255⟩

theorem byteOf_eq_none_iff {v : Int} : byteOf v = none ↔ v < 0 ∨ 255 < v := by
  rw [byteOf]
  split_ifs with h
  · simp only [false_iff]; omega
  · simp only [true_iff]; omega

/-! ## Instruction lines -/

theorem operandValue_nil (token : Text) : operandValue [] token = decimal token := by
  rw [operandValue]
  cases decimal token <;> rfl

/-- A line of HALT, or of a mnemonic without a token, writes the opcode byte (R68). -/
theorem assembleLine_instr_alone {labels : List (Text × Nat)} {n : Nat} {st : AsmState} {name : Text} {op : Byte}
    {operand : Option Text} (hname : opcodeOf name = some op) (hcursor : st.cursor < 256)
    (halone : op = opHalt ∨ operand = none) : assembleLine labels n st (.instr name operand) = .ok (st.push op) := by
  simp only [assembleLine, hname, emit_of_lt hcursor]
  cases operand with
  | none => rfl
  | some token => exact if_pos (halone.resolve_right nofun)

/-- A two-byte mnemonic with a token writes its opcode byte and goes on to the operand (R68). -/
theorem assembleLine_instr_operand {labels : List (Text × Nat)} {n : Nat} {st : AsmState} {name : Text} {op : Byte}
    (token : Text) (hname : opcodeOf name = some op) (hcursor : st.cursor < 256) (hop : op ≠ opHalt) :
    assembleLine labels n st (.instr name (some token)) = emitOperand labels n token (st.push op) := by
  simp only [assembleLine, hname, emit_of_lt hcursor, if_neg hop]

/-- Without labels, an operand is a decimal integer in [0, 255], and that byte is written (R68, D9). -/
theorem emitOperand_of_byte {n : Nat} {token : Text} {st : AsmState} {b : Byte}
    (h : (decimal token).bind byteOf = some b) : emitOperand [] n token st = emit n b st := by
  rw [emitOperand, operandValue_nil, h]

/-- Without labels, any other token fails (R68, D9). -/
theorem emitOperand_of_none {n : Nat} {token : Text} {st : AsmState}
    (h : (decimal token).bind byteOf = none) : emitOperand [] n token st = .error ⟨.invalidOperand n, st.mem⟩ := by
  rw [emitOperand, operandValue_nil, h, asmFail]

/-- Settles O57: the opcode byte alone, or the opcode byte and then the operand's write or its error. -/
theorem operandHandling : Obligations.OperandHandling := by
  intro n st name op hname hcursor
  refine ⟨fun operand halone => assembleLine_instr_alone hname hcursor halone,
    fun token v hop hv h0 h255 hlt => ?_, fun token v hop hv h0 h255 heq => ?_, fun token hop hbad => ?_⟩
  all_goals rw [assembleLine_instr_operand token hname hcursor hop]
  · rw [emitOperand_of_byte (by rw [hv]; exact byteOf_of_range h0 h255), emit_of_lt (Nat.succ_lt_succ hlt)]
    rfl
  · rw [emitOperand_of_byte (by rw [hv]; exact byteOf_of_range h0 h255), emit_of_ge (by simp [heq])]
    rfl
  · refine emitOperand_of_none ?_
    cases hv : decimal token with
    | none => rfl
    | some v => exact byteOf_eq_none_iff.mpr (hbad v hv)

/-- Two names of one opcode assemble alike, whatever the operand. -/
theorem assembleLine_instr_congr {name name' : Text} {op : Byte} (hname : opcodeOf name = some op)
    (hname' : opcodeOf name' = some op) (labels : List (Text × Nat)) (n : Nat) (st : AsmState) (operand : Option Text) :
    assembleLine labels n st (.instr name operand) = assembleLine labels n st (.instr name' operand) := by
  simp only [assembleLine, hname, hname']

/-- Settles O56: each pair has one opcode, and the opcode is read from the folded name. -/
theorem aliasesAndCase : Obligations.AliasesAndCase := by
  refine ⟨fun labels n st operand => ⟨?_, ?_, ?_, ?_, ?_⟩, fun name name' h => by rw [opcodeOf, opcodeOf, h]⟩
  · exact assembleLine_instr_congr (op := 0x07) rfl rfl ..
  · exact assembleLine_instr_congr (op := 0x06) rfl rfl ..
  · exact assembleLine_instr_congr (op := 0x05) rfl rfl ..
  · exact assembleLine_instr_congr (op := 0x0D) rfl rfl ..
  · exact assembleLine_instr_congr (op := 0x0E) rfl rfl ..

/-! ## Lines in order -/

theorem assembleLines_cons_of_ok {labels : List (Text × Nat)} {n : Nat} {l : Text} {st st' : AsmState}
    (h : assembleLine labels n st (classify l) = .ok st') (ls : List Text) :
    assembleLines labels n (l :: ls) st = assembleLines labels (n + 1) ls st' := by
  rw [assembleLines, h]

theorem assembleLines_cons_of_error {labels : List (Text × Nat)} {n : Nat} {l : Text} {st : AsmState} {f : AsmFailure}
    (h : assembleLine labels n st (classify l) = .error f) (ls : List Text) :
    assembleLines labels n (l :: ls) st = .error f := by
  rw [assembleLines, h]

/-- The result of a successful assembly (R57). -/
def AsmState.machineImage (st : AsmState) : MachineImage := { image := imageOf st.mem, trace := st.trace }

/-- The label-blind assembler (D9): its lines from line 1, and then the image. -/
theorem assemble_eq_map (source : Text) :
    assemble source = (assembleLines [] 1 (splitLines source) asmStart).map AsmState.machineImage := by
  rw [assemble, assembleUnder, show labelTable decided.labels (splitLines source) = [] from rfl]
  cases assembleLines [] 1 (splitLines source) asmStart <;> rfl

theorem assemble_of_lines {source : Text} {st : AsmState}
    (h : assembleLines [] 1 (splitLines source) asmStart = .ok st) : assemble source = .ok st.machineImage := by
  rw [assemble_eq_map, h]
  rfl

/-! ## The first error -/

theorem splitLines_cons_newline (rest : Text) : splitLines ('\n' :: rest) = [] :: splitLines rest := rfl

theorem splitLines_cons_of_ne {c : Char} (hc : c ≠ '\n') {rest l : Text} {ls : List Text}
    (h : splitLines rest = l :: ls) : splitLines (c :: rest) = (c :: l) :: ls := by
  rw [splitLines, if_neg hc, h]

/-- Every source text has a first line (R58). -/
theorem splitLines_eq_cons (t : Text) : ∃ l ls, splitLines t = l :: ls := by
  induction t with
  | nil => exact ⟨[], [], rfl⟩
  | cons c t ih =>
    by_cases hc : c = '\n'
    · exact ⟨[], splitLines t, hc ▸ splitLines_cons_newline t⟩
    · obtain ⟨l, ls, h⟩ := ih
      exact ⟨c :: l, ls, splitLines_cons_of_ne hc h⟩

/-- A newline ends a line (R58). -/
theorem splitLines_append_newline (source later : Text) :
    splitLines (source ++ '\n' :: later) = splitLines source ++ splitLines later := by
  induction source with
  | nil => rfl
  | cons c source ih =>
    by_cases hc : c = '\n'
    · rw [hc, List.cons_append, splitLines_cons_newline, splitLines_cons_newline, ih, List.cons_append]
    · obtain ⟨l, ls, h⟩ := splitLines_eq_cons source
      rw [h, List.cons_append] at ih
      rw [List.cons_append, splitLines_cons_of_ne hc ih, splitLines_cons_of_ne hc h, List.cons_append]

/-- Lines after the first that fails change nothing (R72). -/
theorem assembleLines_append_of_error {labels : List (Text × Nat)} {n : Nat} {ls : List Text} {st : AsmState}
    {f : AsmFailure} (h : assembleLines labels n ls st = .error f) (ls' : List Text) :
    assembleLines labels n (ls ++ ls') st = .error f := by
  induction ls generalizing n st with
  | nil => cases h
  | cons l ls ih =>
    rw [List.cons_append]
    cases hl : assembleLine labels n st (classify l) with
    | error e => rwa [assembleLines_cons_of_error hl] at h ⊢
    | ok st' =>
      rw [assembleLines_cons_of_ok hl] at h ⊢
      exact ih h

/-- Settles O54: the failing lines are the first lines of the longer text. -/
theorem firstErrorEndsAssembly : Obligations.FirstErrorEndsAssembly := by
  intro source later f h
  rw [assemble_eq_map] at h ⊢
  rw [splitLines_append_newline]
  cases hlines : assembleLines [] 1 (splitLines source) asmStart with
  | error e =>
    rw [hlines] at h
    rwa [assembleLines_append_of_error hlines]
  | ok st => rw [hlines] at h; cases h

/-! ## Invariants of the assembler -/

/-- A predicate that both of a line's actions keep: moving the cursor and writing a byte below address 256. -/
structure AsmInvariant (P : AsmState → Prop) : Prop where
  move : ∀ {st : AsmState} (a : Nat), P st → P { st with cursor := a }
  push : ∀ {st : AsmState} (b : Byte), st.cursor < 256 → P st → P (st.push b)

section
variable {P : AsmState → Prop} {labels : List (Text × Nat)} {n : Nat} {st st' : AsmState}

theorem AsmInvariant.of_emit (inv : AsmInvariant P) {b : Byte} (hst : P st) (h : emit n b st = .ok st') : P st' := by
  obtain ⟨hcursor, rfl⟩ := emit_eq_ok_iff.mp h
  exact inv.push b hcursor hst

theorem AsmInvariant.of_emitOperand (inv : AsmInvariant P) {token : Text} (hst : P st)
    (h : emitOperand labels n token st = .ok st') : P st' := by
  unfold emitOperand at h
  split at h
  · cases h
  · exact inv.of_emit hst h

/-- Every line that does not fail keeps an invariant. -/
theorem AsmInvariant.of_assembleLine (inv : AsmInvariant P) {line : Line} (hst : P st)
    (h : assembleLine labels n st line = .ok st') : P st' := by
  cases line with
  | blank | label => cases h; exact hst
  | org v =>
    simp only [assembleLine] at h
    split at h
    · cases h
    · cases h; exact inv.move _ hst
  | data v =>
    simp only [assembleLine] at h
    split at h
    · cases h
    · exact inv.of_emit hst h
  | instr name operand =>
    simp only [assembleLine] at h
    split at h
    · cases h
    split at h
    · cases h
    next st₁ hemit =>
      have hst₁ := inv.of_emit hst hemit
      split at h
      · cases h; exact hst₁
      · split_ifs at h
        · cases h; exact hst₁
        · exact inv.of_emitOperand hst₁ h

theorem AsmInvariant.of_assembleLines (inv : AsmInvariant P) {ls : List Text} (hst : P st)
    (h : assembleLines labels n ls st = .ok st') : P st' := by
  induction ls generalizing n st with
  | nil => cases h; exact hst
  | cons l ls ih =>
    cases hl : assembleLine labels n st (classify l) with
    | error e => rw [assembleLines_cons_of_error hl] at h; cases h
    | ok st₁ =>
      rw [assembleLines_cons_of_ok hl] at h
      exact ih (inv.of_assembleLine hst hl) h

end

/-- Memory is canonical, and every byte in it that is not 0 is in the trace (R77). -/
def NonzeroTraced (st : AsmState) : Prop :=
  Memory.wf st.mem = true ∧ ∀ a, cellRead st.mem a ≠ 0#8 → hexByte (cellRead st.mem a) ∈ st.trace

theorem nonzeroTraced_invariant : AsmInvariant NonzeroTraced where
  move _ h := h
  push {st} b hcursor h := by
    obtain ⟨hwf, htraced⟩ := h
    refine ⟨memoryWfFrom_cellWrite b hwf (Nat.zero_le _) hcursor, fun a hne => ?_⟩
    rw [AsmState.push_mem, cellRead_cellWrite hwf] at hne ⊢
    rw [AsmState.push_trace, List.mem_append]
    split_ifs at hne ⊢ with ha
    · exact .inr (List.mem_singleton.mpr rfl)
    · exact .inl (htraced a hne)

theorem nonzeroTraced_asmStart : NonzeroTraced asmStart := ⟨wf_nil, fun _ h => absurd rfl h⟩

/-- Settles O55: the invariant, from the empty memory over all lines. -/
theorem nonzeroCellsAreTraced : Obligations.NonzeroCellsAreTraced := by
  intro source out a h hne
  rw [assemble_eq_map] at h
  cases hlines : assembleLines [] 1 (splitLines source) asmStart with
  | error e => rw [hlines] at h; cases h
  | ok st =>
    rw [hlines] at h
    cases h
    rw [AsmState.machineImage, imageAt_imageOf] at hne ⊢
    exact (nonzeroTraced_invariant.of_assembleLines nonzeroTraced_asmStart hlines).2 _ hne

/-! ## Assembly into the engine -/

theorem memRead_loadImage (image : Image) (s : State) (a : Byte) :
    memRead (loadImage image s).mem a = imageAt image a :=
  memRead_cellsOf image a

/-- Settles O58: LOAD_IMAGE and a replaced memory write memory alone, and the image reads back. -/
theorem assemblyIntoMemory : Obligations.AssemblyIntoMemory := by
  refine fun p source s => ⟨fun out h => ?_, fun f h => ?_⟩
  · exact ⟨(loadImage out.image s).mem, by rw [assembleInto, h]; rfl, memRead_loadImage out.image s⟩
  · cases himage : p.asmFailImage with
    | noLaunch => exact ⟨s.mem, by simp only [assembleInto, h, himage], fun _ => rfl, nofun, nofun⟩
    | partialImage =>
      refine ⟨(loadImage (imageOf f.written) s).mem, by simp only [assembleInto, h, himage]; rfl, nofun, fun _ a => ?_,
        nofun⟩
      rw [memRead_loadImage, imageAt_imageOf]
    | zero => exact ⟨[], by simp only [assembleInto, h, himage]; rfl, nofun, nofun, fun _ => memRead_nil⟩

end Sys2Proof.Machine
end

section
/-! PROOFS. Source text of a known form (R58 to R69): words between spaces, decimal digits, and what a line
of them is. -/

namespace Sys2Proof.Machine

open Sys2Proof.Claims

/-! ## Words -/

/-- A token: some characters, none of them white space. -/
def Word (t : Text) : Prop := t ≠ [] ∧ ∀ c ∈ t, isSpace c = false

theorem Word.reverse {t : Text} (h : Word t) : Word t.reverse :=
  ⟨fun e => h.1 (List.reverse_eq_nil_iff.mp e), fun c hc => h.2 c (List.mem_reverse.mp hc)⟩

theorem Word.dropWhile_append {w : Text} (h : Word w) (t : Text) : (w ++ t).dropWhile isSpace = w ++ t := by
  obtain ⟨hne, hspace⟩ := h
  cases w with
  | nil => exact absurd rfl hne
  | cons c w => exact List.dropWhile_cons_of_neg (by simp [hspace c])

/-- Trimming leaves a text that begins and ends with a word (R60). -/
theorem trim_append {w v : Text} (hw : Word w) (hv : Word v) (mid : Text) :
    trim (w ++ (mid ++ v)) = w ++ (mid ++ v) := by
  have hback : ((w ++ (mid ++ v)).reverse.dropWhile isSpace) = (w ++ (mid ++ v)).reverse := by
    rw [List.reverse_append, List.reverse_append, List.append_assoc, hv.reverse.dropWhile_append]
  rw [trim, hw.dropWhile_append, hback, List.reverse_reverse]

theorem Word.trim_eq {w : Text} (h : Word w) : trim w = w := by
  have hfront := h.dropWhile_append []
  have hback := h.reverse.dropWhile_append []
  rw [List.append_nil] at hfront hback
  rw [trim, hfront, hback, List.reverse_reverse]

theorem Word.firstToken_eq {w : Text} (h : Word w) : firstToken w = w :=
  List.takeWhile_eq_self_iff.mpr fun c hc => by simp [h.2 c hc]

/-- The first token of two words with a space between them. -/
theorem Word.firstToken_append {w : Text} (h : Word w) (v : Text) : firstToken (w ++ ' ' :: v) = w := by
  rw [firstToken, List.takeWhile_append_of_pos fun c hc => by simp [h.2 c hc]]
  exact List.append_nil w

/-- What follows the first of two words with a space between them. -/
theorem Word.afterToken_append {w v : Text} (hw : Word w) (hv : Word v) : afterToken (w ++ ' ' :: v) = v := by
  rw [afterToken, List.dropWhile_append_of_pos fun c hc => by simp [hw.2 c hc]]
  exact hv.trim_eq

theorem trim_two_words {w v : Text} (hw : Word w) (hv : Word v) : trim (w ++ ' ' :: v) = w ++ ' ' :: v :=
  trim_append hw hv [' ']

/-- White space is at or below the space character. -/
theorem isSpace_eq_false_of_lt {c : Char} (h : 32 < c.toNat) : isSpace c = false := by
  by_contra hspace
  simp only [Bool.not_eq_false, isSpace, Bool.or_eq_true, beq_iff_eq] at hspace
  rcases hspace with ((((rfl | rfl) | rfl) | rfl) | h') | h'
  · exact absurd h (by decide)
  · exact absurd h (by decide)
  · exact absurd h (by decide)
  · exact absurd h (by decide)
  · omega
  · omega

/-! ## Decimal digits -/

/-- One or more ASCII digits (R69). -/
def Digits (t : Text) : Prop := t ≠ [] ∧ ∀ c ∈ t, isDigit c = true

theorem isDigit_iff {c : Char} : isDigit c = true ↔ 48 ≤ c.toNat ∧ c.toNat ≤ 57 := by
  simp [isDigit]

theorem Digits.word {t : Text} (h : Digits t) : Word t :=
  ⟨h.1, fun c hc => isSpace_eq_false_of_lt (by have := isDigit_iff.mp (h.2 c hc); omega)⟩

/-- A character that is no digit is not in a run of digits. -/
theorem Digits.ne_of_mem {t : Text} (h : Digits t) {c d : Char} (hc : c ∈ t) (hd : isDigit d = false) : c ≠ d := by
  rintro rfl
  exact absurd (h.2 c hc) (by simp [hd])

/-- A run of digits is a decimal integer without a sign (R69). -/
theorem Digits.decimal_eq {t : Text} (h : Digits t) : decimal t = some (digitsValue 0 t : Int) := by
  have hnatural : natural t = some (digitsValue 0 t) := if_pos ⟨h.1, List.all_eq_true.mpr h.2⟩
  cases t with
  | nil => exact absurd rfl h.1
  | cons c t =>
    have hplus : c ≠ '+' := h.ne_of_mem List.mem_cons_self (by decide)
    have hminus : c ≠ '-' := h.ne_of_mem List.mem_cons_self (by decide)
    rw [decimal, if_neg hplus, if_neg hminus, hnatural]
    rfl

/-- A text that begins with neither a digit nor a sign is no decimal integer (R69). -/
theorem decimal_cons_eq_none {c : Char} (hdigit : isDigit c = false) (hplus : c ≠ '+') (hminus : c ≠ '-') (t : Text) :
    decimal (c :: t) = none := by
  have hnatural : natural (c :: t) = none := if_neg fun h => by simp [hdigit] at h
  rw [decimal, if_neg hplus, if_neg hminus, hnatural]
  rfl

theorem digitChar_toNat {n : Nat} (h : n < 10) : (Char.ofNat (48 + n)).toNat = 48 + n := by
  interval_cases n <;> rfl

theorem isDigit_digitChar {n : Nat} (h : n < 10) : isDigit (Char.ofNat (48 + n)) = true := by
  rw [isDigit_iff, digitChar_toNat h]
  omega

theorem digitsValue_cons (v : Nat) (c : Char) (t : Text) :
    digitsValue v (c :: t) = digitsValue (10 * v + (c.toNat - 48)) t := by
  dsimp only [digitsValue]
  rfl

theorem digitsValue_digitChar {n : Nat} (h : n < 10) (v : Nat) (t : Text) :
    digitsValue v (Char.ofNat (48 + n) :: t) = digitsValue (10 * v + n) t := by
  rw [digitsValue_cons, digitChar_toNat h, Nat.add_sub_cancel_left]

@[simp] theorem digitsValue_nil (v : Nat) : digitsValue v [] = v := rfl

/-- `byteText` is a run of digits with the byte as value. -/
theorem byteText_spec (b : Byte) : Digits (byteText b) ∧ digitsValue 0 (byteText b) = b.toNat := by
  have hlt := b.isLt
  have hones : b.toNat % 10 < 10 := Nat.mod_lt _ (by decide)
  unfold byteText
  by_cases h10 : b.toNat < 10
  · simp only [if_pos h10, digitsValue_digitChar h10, digitsValue_nil]
    exact ⟨by simp [Digits, isDigit_digitChar h10], by omega⟩
  by_cases h100 : b.toNat < 100
  · have htens : b.toNat / 10 < 10 := by omega
    simp only [if_neg h10, if_pos h100, digitsValue_digitChar htens, digitsValue_digitChar hones, digitsValue_nil]
    exact ⟨by simp [Digits, isDigit_digitChar htens, isDigit_digitChar hones], by omega⟩
  · have htens : b.toNat / 10 % 10 < 10 := Nat.mod_lt _ (by decide)
    have hhundreds : b.toNat / 100 < 10 := by omega
    simp only [if_neg h10, if_neg h100, digitsValue_digitChar hhundreds, digitsValue_digitChar htens,
      digitsValue_digitChar hones, digitsValue_nil]
    exact ⟨by simp [Digits, isDigit_digitChar hhundreds, isDigit_digitChar htens, isDigit_digitChar hones], by omega⟩

theorem byteText_digits (b : Byte) : Digits (byteText b) := (byteText_spec b).1

theorem byteText_word (b : Byte) : Word (byteText b) := (byteText_digits b).word

theorem decimal_byteText (b : Byte) : decimal (byteText b) = some (b.toNat : Int) := by
  rw [(byteText_digits b).decimal_eq, (byteText_spec b).2]

theorem byteOf_toNat (b : Byte) : byteOf (b.toNat : Int) = some b := by
  have hlt := b.isLt
  rw [byteOf_of_range (by omega) (by omega)]
  simp

/-! ## Lines -/

/-- A text without a newline is one line (R58). -/
theorem splitLines_of_newline_notMem {t : Text} (h : '\n' ∉ t) : splitLines t = [t] := by
  induction t with
  | nil => rfl
  | cons c t ih =>
    rw [List.mem_cons, not_or] at h
    exact splitLines_cons_of_ne (Ne.symm h.1) (ih h.2)

/-- Digits have no letter case. -/
theorem Digits.foldCase_eq {t : Text} (h : Digits t) : foldCase t = t := by
  refine (List.map_congr_left fun c hc => ?_).trans (List.map_id t)
  have hdigit := isDigit_iff.mp (h.2 c hc)
  refine dif_neg fun hlower => ?_
  have hle : 97 ≤ c.toNat := UInt32.le_iff_toNat_le.mp hlower.1
  omega

/-- A line of digits is a data line (R63). -/
theorem classify_digits {t : Text} (h : Digits t) : classify t = .data (digitsValue 0 t) := by
  have hblank : ¬ (t = [] ∨ t.head? = some ';') := by
    rintro (e | e)
    · exact h.1 e
    · exact h.ne_of_mem (List.mem_of_mem_head? e) (by decide) rfl
  have horg : foldCase t ≠ ".ORG".toList := by
    rw [h.foldCase_eq]
    rintro rfl
    exact absurd (h.2 '.' (by decide)) (by decide)
  rw [classify, h.word.trim_eq, classifyTrimmed, if_neg hblank, h.word.firstToken_eq, if_neg horg, h.decimal_eq]

theorem classify_byteText (b : Byte) : classify (byteText b) = .data b.toNat := by
  rw [classify_digits (byteText_digits b), (byteText_spec b).2]

/-- `.org`, a space and a word (R61). -/
theorem classify_org {t : Text} (h : Word t) : classify (".org".toList ++ ' ' :: t) = .org (decimal t) := by
  have hword : Word ".org".toList := ⟨by simp, by simp [isSpace]⟩
  have hfold : foldCase ".org".toList = ".ORG".toList := rfl
  rw [classify, trim_two_words hword h, classifyTrimmed, if_neg (by simp), hword.firstToken_append,
    hword.afterToken_append h, if_pos hfold]

/-- No mnemonic is `.ORG`, in any case. -/
theorem foldCase_ne_org {name : Text} {op : Byte} (h : opcodeOf name = some op) : foldCase name ≠ ".ORG".toList := by
  intro hfold
  rw [opcodeOf, hfold, show opcodeMap.lookup (resolveAlias ".ORG".toList) = none from rfl] at h
  cases h

/-- A mnemonic in upper-case letters, with its opcode (R50, R65). -/
structure Mnemonic (name : Text) (op : Byte) : Prop where
  upper : ∀ c ∈ name, c.isUpper = true
  opcode : opcodeOf name = some op

theorem Mnemonic.ne_nil {name : Text} {op : Byte} (h : Mnemonic name op) : name ≠ [] := by
  rintro rfl
  cases h.opcode

/-- The mnemonics of R50 are in upper-case letters. -/
theorem mnemonic_of_mem {name : Text} {op : Byte} (h : (name, op) ∈ opcodeMap) : Mnemonic name op := by
  have hupper : ∀ e ∈ opcodeMap, e.1.all Char.isUpper = true := by decide
  have hopcode : ∀ e ∈ opcodeMap, opcodeOf e.1 = some e.2 := by decide
  exact ⟨List.all_eq_true.mp (hupper _ h), hopcode _ h⟩

theorem le_toNat_of_isUpper {c : Char} (h : c.isUpper = true) : 65 ≤ c.toNat := by
  simp only [Char.isUpper, decide_eq_true_eq] at h
  exact UInt32.le_iff_toNat_le.mp h.1

theorem Mnemonic.word {name : Text} {op : Byte} (h : Mnemonic name op) : Word name :=
  ⟨h.ne_nil, fun c hc => isSpace_eq_false_of_lt (by have := le_toNat_of_isUpper (h.upper c hc); omega)⟩

section
variable {name operand : Text} {op : Byte}

/-- What a line of a mnemonic, a space and digits does not hold. -/
theorem Mnemonic.notMem_line (hname : Mnemonic name op) (hoperand : Digits operand) {c : Char}
    (hupper : c.isUpper = false) (hspace : c ≠ ' ') (hdigit : isDigit c = false) : c ∉ name ++ ' ' :: operand := by
  rw [List.mem_append, List.mem_cons]
  rintro (hc | rfl | hc)
  · exact absurd (hname.upper c hc) (by simp [hupper])
  · exact hspace rfl
  · exact hoperand.ne_of_mem hc hdigit rfl

/-- A line that begins with a mnemonic is no data line. -/
theorem Mnemonic.decimal_eq_none (hname : Mnemonic name op) (t : Text) : decimal (name ++ t) = none := by
  cases name with
  | nil => exact absurd rfl hname.ne_nil
  | cons c name =>
    have hupper := le_toNat_of_isUpper (hname.upper c List.mem_cons_self)
    refine decimal_cons_eq_none ?_ ?_ ?_ _
    · rw [← Bool.not_eq_true, isDigit_iff]; omega
    · rintro rfl; exact absurd hupper (by decide)
    · rintro rfl; exact absurd hupper (by decide)

/-- A mnemonic, a space and digits are an instruction line (R65, R68). -/
theorem Mnemonic.classify_line (hname : Mnemonic name op) (hoperand : Digits operand) :
    classify (name ++ ' ' :: operand) = .instr name (some operand) := by
  have hsemi : ';' ∉ name ++ ' ' :: operand := hname.notMem_line hoperand (by decide) (by decide) (by decide)
  have hcolon : ':' ∉ name ++ ' ' :: operand := hname.notMem_line hoperand (by decide) (by decide) (by decide)
  have hblank : ¬ (name ++ ' ' :: operand = [] ∨ (name ++ ' ' :: operand).head? = some ';') := by
    rintro (e | e)
    · exact List.cons_ne_nil _ _ (List.append_eq_nil_iff.mp e).2
    · exact hsemi (List.mem_of_mem_head? e)
  have hlast : (name ++ ' ' :: operand).getLast? ≠ some ':' := fun e => hcolon (List.mem_of_getLast? e)
  have hcode : (name ++ ' ' :: operand).takeWhile (fun c => c != ';') = name ++ ' ' :: operand :=
    List.takeWhile_eq_self_iff.mpr fun c hc => bne_iff_ne.mpr fun e => hsemi (e ▸ hc)
  have htrim := trim_two_words hname.word hoperand.word
  rw [classify, htrim, classifyTrimmed, if_neg hblank, hname.word.firstToken_append,
    if_neg (foldCase_ne_org hname.opcode), hname.decimal_eq_none]
  simp only [if_neg hlast, hcode, htrim, hname.word.firstToken_append,
    hname.word.afterToken_append hoperand.word, if_neg hoperand.1]

end

end Sys2Proof.Machine
end

section
/-! PROOFS. Whole source texts (R57, R76): a data byte at an address, and the source line of an instruction, which the
launched engine then runs (R128). -/

namespace Sys2Proof.Machine

open Sys2Proof.Claims

theorem newline_notMem_byteText (b : Byte) : '\n' ∉ byteText b :=
  fun h => (byteText_digits b).ne_of_mem h (by decide) rfl

theorem assemble_of_line {t : Text} {st : AsmState} (hline : '\n' ∉ t)
    (h : assembleLine [] 1 asmStart (classify t) = .ok st) : assemble t = .ok st.machineImage := by
  refine assemble_of_lines ?_
  rw [splitLines_of_newline_notMem hline, assembleLines_cons_of_ok h, assembleLines]

theorem assembleLine_org (labels : List (Text × Nat)) (n : Nat) (st : AsmState) (a : Byte) :
    assembleLine labels n st (.org (some (a.toNat : Int))) = .ok { st with cursor := a.toNat } := by
  simp only [assembleLine, Option.bind_some, byteOf_toNat]

theorem assembleLine_data (labels : List (Text × Nat)) (n : Nat) (st : AsmState) (b : Byte) :
    assembleLine labels n st (.data (b.toNat : Int)) = emit n b st := by
  simp only [assembleLine, byteOf_toNat]

/-- Settles O52: the first line moves the cursor to `a`, and the second writes `d` there. -/
theorem dataBytePlacement : Obligations.DataBytePlacement := by
  intro a d
  let st : AsmState := { asmStart with cursor := a.toNat }
  have hsplit : splitLines (".org ".toList ++ byteText a ++ '\n' :: byteText d)
      = [".org".toList ++ ' ' :: byteText a, byteText d] := by
    rw [splitLines_append_newline, splitLines_of_newline_notMem (newline_notMem_byteText d),
      splitLines_of_newline_notMem (by simp [newline_notMem_byteText])]
    rfl
  have horg : assembleLine [] 1 asmStart (classify (".org".toList ++ ' ' :: byteText a)) = .ok st := by
    rw [classify_org (byteText_word a), decimal_byteText, assembleLine_org]
  have hdata : assembleLine [] 2 st (classify (byteText d)) = .ok (st.push d) := by
    rw [classify_byteText, assembleLine_data, emit_of_lt a.isLt]
  refine ⟨(st.push d).machineImage, assemble_of_lines ?_, rfl, fun b => ?_⟩
  · rw [hsplit, assembleLines_cons_of_ok horg, assembleLines_cons_of_ok hdata, assembleLines]
  · rw [AsmState.machineImage, imageAt_imageOf]
    split_ifs with hb
    · exact hb ▸ memRead_memWrite_same wf_nil a d
    · exact memRead_memWrite_of_ne [] d hb

/-! ## The source line of an instruction -/

/-- Every instruction but HALT has a mnemonic of R50 with its opcode, and its line and its bytes end in the operand. -/
theorem sourceLine_cases (i : Instr) : i = .halt ∨ ∃ name op a, (name, op) ∈ opcodeMap ∧ op ≠ opHalt ∧
    sourceLine i = name ++ ' ' :: byteText a ∧ encode i = [op, a] := by
  cases i with
  | halt => exact .inl rfl
  | load a => exact .inr ⟨"LOAD".toList, 0x01, a, by decide, by decide, rfl, rfl⟩
  | store a => exact .inr ⟨"STORE".toList, 0x02, a, by decide, by decide, rfl, rfl⟩
  | add a => exact .inr ⟨"ADD".toList, 0x03, a, by decide, by decide, rfl, rfl⟩
  | sub a => exact .inr ⟨"SUB".toList, 0x04, a, by decide, by decide, rfl, rfl⟩
  | jump a => exact .inr ⟨"JUMP".toList, 0x05, a, by decide, by decide, rfl, rfl⟩
  | jzero a => exact .inr ⟨"JZERO".toList, 0x06, a, by decide, by decide, rfl, rfl⟩
  | cmp a => exact .inr ⟨"CMP".toList, 0x08, a, by decide, by decide, rfl, rfl⟩
  | jlt a => exact .inr ⟨"JLT".toList, 0x09, a, by decide, by decide, rfl, rfl⟩
  | jgt a => exact .inr ⟨"JGT".toList, 0x0A, a, by decide, by decide, rfl, rfl⟩
  | jle a => exact .inr ⟨"JLE".toList, 0x0B, a, by decide, by decide, rfl, rfl⟩
  | jge a => exact .inr ⟨"JGE".toList, 0x0C, a, by decide, by decide, rfl, rfl⟩
  | jeq a => exact .inr ⟨"JEQ".toList, 0x0D, a, by decide, by decide, rfl, rfl⟩
  | jne a => exact .inr ⟨"JNE".toList, 0x0E, a, by decide, by decide, rfl, rfl⟩

/-- The assembler's record after some bytes written from address 0. -/
structure Wrote (bytes : List Byte) (st : AsmState) : Prop where
  trace : st.trace = bytes.map hexByte
  read : ∀ n, cellRead st.mem n = bytes.getD n 0x00#8

theorem wrote_one (op : Byte) : Wrote [op] (asmStart.push op) where
  trace := rfl
  read n := by
    rw [AsmState.push_mem, cellRead_cellWrite (lo := 0) rfl]
    cases n <;> rfl

theorem wrote_two (op a : Byte) : Wrote [op, a] ((asmStart.push op).push a) where
  trace := rfl
  read n := by
    have hwf : memoryWfFrom 0 (asmStart.push op).mem = true :=
      memoryWfFrom_cellWrite op rfl (Nat.zero_le _) (by decide)
    rw [AsmState.push_mem, cellRead_cellWrite hwf, (wrote_one op).read]
    rcases n with _ | _ | n <;> rfl

/-- The source line of an instruction assembles to its encoding, written from address 0 (R50, R68, R71). -/
theorem assemble_sourceLine (i : Instr) :
    ∃ st, assemble (sourceLine i) = .ok st.machineImage ∧ Wrote (encode i) st := by
  rcases sourceLine_cases i with rfl | ⟨name, op, a, hmem, hop, hsource, hencode⟩
  · refine ⟨_, assemble_of_line (by decide) ?_, wrote_one 0x07⟩
    rw [show classify (sourceLine .halt) = .instr "HALT".toList none from rfl]
    exact assembleLine_instr_alone rfl (by decide) (.inr rfl)
  · have hname := mnemonic_of_mem hmem
    have hdigits := byteText_digits a
    rw [hsource, hencode]
    refine ⟨_, assemble_of_line (hname.notMem_line hdigits (by decide) (by decide) (by decide)) ?_, wrote_two op a⟩
    rw [hname.classify_line hdigits, assembleLine_instr_operand _ hname.opcode (by decide) hop,
      emitOperand_of_byte (by rw [decimal_byteText]; exact byteOf_toNat a), emit_of_lt (show 1 < 256 by decide)]

/-- The two bytes the first step sees are the encoding, and after HALT's one byte another. -/
theorem encode_getD (i : Instr) : ∃ rest, [(encode i).getD 0 0x00#8, (encode i).getD 1 0x00#8] = encode i ++ rest := by
  cases i with
  | halt => exact ⟨[0x00#8], rfl⟩
  | _ => exact ⟨[], rfl⟩

/-- After a launch the first step runs the instruction that the image begins with (R82, R128). -/
theorem step_launch {image : Image} {i : Instr} (h : ∀ a, imageAt image a = (encode i).getD a.toNat 0x00#8)
    (s : State) : step (launch image s) = exec i (fetch (launch image s)) := by
  obtain ⟨rest, hbytes⟩ := encode_getD i
  have hread : ∀ a, memRead (launch image s).mem a = (encode i).getD a.toNat 0x00#8 :=
    fun a => (memRead_loadImage image _ a).trans (h a)
  have hop : memRead (launch image s).mem (launch image s).pc = (encode i).getD 0 0x00#8 := hread 0x00
  have hoperand : memRead (launch image s).mem ((launch image s).pc + 1#8) = (encode i).getD 1 0x00#8 := hread 0x01
  rw [step_running rfl hop, hoperand, hbytes, decode_encode_append]

/-- Settles O53: the assembled image holds the encoding from address 0, where the launched engine fetches. -/
theorem assembledInstructionRuns : Obligations.AssembledInstructionRuns := by
  intro i s
  obtain ⟨st, hassemble, hwrote⟩ := assemble_sourceLine i
  have himage : ∀ a, imageAt st.machineImage.image a = (encode i).getD a.toNat 0x00#8 := fun a => by
    rw [AsmState.machineImage, imageAt_imageOf, memRead, hwrote.read]
  exact ⟨st.machineImage, hassemble, hwrote.trace, himage, step_launch himage s⟩

end Sys2Proof.Machine
end

section
/-! PROOFS. A step from fetch to STATUS (R79 to R84): the fetch, the decoded instruction, the STATUS and the refusals. -/

namespace Sys2Proof.Machine

open Sys2Proof.Claims

/-- Settles O2: the fetch field by field, with PC read as a number. -/
theorem fetchEffect : Obligations.FetchEffect := fun s =>
  ⟨fetch_mar s, fetch_mbr s, fetch_ir s, BitVec.toNat_add s.pc 1#8, fetch_acc s, fetch_flags s, fetch_run s,
    fun a => by rw [fetch_mem], cycle_running⟩

/-- Settles O3: a step decodes the two bytes at PC, and the fetched state is the one written out. -/
theorem stepRunsTheDecodedInstruction : Obligations.StepRunsTheDecodedInstruction := by
  intro s i rest hrun hdecode _
  rw [step_running hrun rfl, hdecode, ← fetch_eq]

/-- STATUS determines RUN (R83, D6). -/
theorem statusOf_eq_halted_iff {r : RunState} : statusOf r = .halted ↔ r = .halted := by
  cases r <;> simp [statusOf]
theorem statusOf_eq_error_iff {r : RunState} {v : Byte} : statusOf r = .error (.unknownOpcode v) ↔ r = .faulted v := by
  cases r <;> simp [statusOf]
theorem statusOf_eq_continuing_iff {r : RunState} : statusOf r = .continuing ↔ r = .running := by
  cases r <;> simp [statusOf]

/-- Settles O4: STATUS is RUN after the step, and O5 says which RUN each opcode byte leaves. -/
theorem stepStatusFollowsOpcode : Obligations.StepStatusFollowsOpcode := by
  intro s hrun
  obtain ⟨t, ht, hhalted, hfaulted, hrunning⟩ := runAfterStep s hrun
  exact ⟨t, statusOf t.run, transact_step_of_step ht, statusOf_eq_halted_iff.trans hhalted,
    fun v => statusOf_eq_error_iff.trans (hfaulted v), statusOf_eq_continuing_iff.trans hrunning⟩

/-- A stopped engine does not step; the refusal names its run state (R84, log entry 5). -/
theorem step_halted {s : State} (h : s.run = .halted) : step s = .refused .stepWhileHalted := by
  simp [step, cycle, h]
theorem step_faulted {s : State} {v : Byte} (h : s.run = .faulted v) : step s = .refused (.stepWhileFaulted v) := by
  simp [step, cycle, h]

/-- STEP has a transaction only while the engine is Running (R126). -/
theorem running_of_transact_step {s t : State} {r : Reply} (h : transact .step s = .next (t, r)) :
    s.run = .running := by
  cases hs : step s with
  | next u => exact (step_cases hs).1
  | fault | refused => rw [transact, hs] at h; cases h

/-- Settles O6: the two refusals by name, and RESET from any state. -/
theorem stoppedEngineRefusesStep : Obligations.StoppedEngineRefusesStep := fun _ =>
  ⟨step_halted, fun _ => step_faulted, fun hstopped _ _ h => hstopped (running_of_transact_step h),
    State.reset, rfl, State.reset_run⟩

end Sys2Proof.Machine
end

section
/-! PROOFS. The step against the spec's pseudocode (R86 with R87 to R109): the unbounded integers of Machine/Pseudocode
against the bytes of the model, and then one lemma for each line of the pseudocode. -/

namespace Sys2Proof.Machine

/-! ## Integers and bytes -/

/-- The pseudocode's `mod 256` is the model's (R10). -/
theorem pseudoMod256_eq (v : Int) : pseudoMod256 v = mod256 v := by
  apply BitVec.eq_of_toNat_eq
  have h := mod256_toNat v
  rw [pseudoMod256, BitVec.toNat_ofNat]
  omega

/-- `(PC + 1) mod 256` on integers is the increment of a byte (R20). -/
theorem pseudoMod256_succ (b : Byte) : pseudoMod256 ((b.toNat : Int) + 1) = b + 1#8 :=
  (pseudoMod256_eq _).trans (aluAdd_result b 1#8)

/-- Narrowing keeps the low eight bits of the two's complement, of a negative integer too (R10). -/
theorem mod256_getLsbD (v : Int) {k : Nat} (hk : k < 8) : (mod256 v).getLsbD k = v.testBit k := by
  cases v with
  | ofNat n => simp [mod256, Int.testBit, hk, BitVec.getLsbD_ofNat, -BitVec.getLsbD_eq_getElem]
  | negSucc n => simp [mod256, Int.testBit, hk, BitVec.getLsbD_ofNat, -BitVec.getLsbD_eq_getElem]

/-- The bits of a byte are those of its value as an integer (R8). -/
theorem testBit_intOf (b : Byte) (k : Nat) : (intOf b).testBit k = b.getLsbD k := rfl

/-- `& 0x80` on an integer in two's complement tests bit 7. -/
theorem land_0x80_ne_zero_iff (v : Int) : Int.land v 0x80 ≠ 0 ↔ v.testBit 7 = true := by
  obtain ⟨m, hm⟩ : ∃ m : ℕ, Int.land v 0x80 = m := by cases v <;> exact ⟨_, rfl⟩
  have hbit : ∀ k, m.testBit k = (v.testBit k && decide (7 = k)) := fun k => by
    have h := Int.testBit_land v 0x80 k
    rw [hm] at h
    exact h.trans (congrArg _ (Nat.testBit_two_pow (n := 7) (m := k)))
  rw [hm, Int.natCast_ne_zero]
  constructor
  · intro hne
    obtain ⟨k, hk⟩ := Nat.exists_testBit_of_ne_zero hne
    rw [hbit, Bool.and_eq_true, decide_eq_true_iff] at hk
    obtain ⟨hv, rfl⟩ := hk
    exact hv
  · rintro h rfl
    simpa [h] using hbit 7

/-- `& 0x80` on a byte tests bit 7. -/
theorem and_0x80_ne_zero (b : Byte) : (b &&& 0x80 != 0#8) = b.getLsbD 7 := by revert b; decide

/-- R89's formula on unbounded integers is the model's overflow of ADD. -/
theorem aluAdd_overflow_iff (x y : Byte) : (aluAdd x y).overflow = true ↔
    Int.land (Int.land (Int.xor x.toNat (x.toNat + y.toNat)) (Int.xor y.toNat (x.toNat + y.toNat))) 0x80 ≠ 0 := by
  rw [land_0x80_ne_zero_iff]
  simp only [aluAdd, and_0x80_ne_zero, BitVec.getLsbD_and, BitVec.getLsbD_xor, mod256_getLsbD _ (k := 7) (by decide),
    Int.testBit_land, Int.testBit_lxor, testBit_intOf]

/-- R90's formula on unbounded integers, the difference in two's complement (D22), is the model's overflow of SUB. -/
theorem aluSub_overflow_iff (x y : Byte) : (aluSub x y).overflow = true ↔
    Int.land (Int.land (Int.xor x.toNat y.toNat) (Int.xor x.toNat (x.toNat - y.toNat))) 0x80 ≠ 0 := by
  rw [land_0x80_ne_zero_iff]
  simp only [aluSub, and_0x80_ne_zero, BitVec.getLsbD_and, BitVec.getLsbD_xor, mod256_getLsbD _ (k := 7) (by decide),
    Int.testBit_land, Int.testBit_lxor, testBit_intOf]

/-! ## FLAGS -/

/-- FLAGS as the sum of its four bits is FLAGS set bit by bit from zero, in the order of ADD and SUB (R92). -/
theorem flagSetIf_eq_pseudoFlags (z n c v : Bool) :
    flagSetIf n maskN (flagSetIf z maskZ (flagSetIf v maskV (flagSetIf c maskC 0#8))) = pseudoFlags z n c v := by
  revert z n c v; decide

/-- Equivalent conditions make the same FLAGS. -/
theorem pseudoFlags_congr {z n c v z' n' c' v' : Prop} [Decidable z] [Decidable n] [Decidable c] [Decidable v]
    [Decidable z'] [Decidable n'] [Decidable c'] [Decidable v'] (hz : z ↔ z') (hn : n ↔ n') (hc : c ↔ c')
    (hv : v ↔ v') : pseudoFlags z n c v = pseudoFlags z' n' c' v' := by
  simp only [pseudoFlags, hz, hn, hc, hv]

/-- FLAGS after ADD or SUB, from any conditions that say what the ALU's carry and overflow are (R92 to R94). -/
theorem arithFlags_eq_pseudoFlags (r : AluResult) {c v : Prop} [Decidable c] [Decidable v]
    (hc : r.carry = true ↔ c) (hv : r.overflow = true ↔ v) :
    arithFlags r = pseudoFlags (r.result = 0) (128 ≤ r.result.toNat) c v := by
  rw [arithFlags, flagSetIf_eq_pseudoFlags]
  exact pseudoFlags_congr beq_iff_eq (by rw [bit7_eq, decide_eq_true_iff]) hc hv

/-- FLAGS after CMP, which sets its three bits in another order (R91). -/
theorem cmpFlags_eq_pseudoFlags (x y : Byte) : cmpFlags x y =
    pseudoFlags (intOf x - intOf y = 0) (intOf x - intOf y < 0) False
      (intOf x - intOf y < -128 ∨ intOf x - intOf y > 127) := by
  have horder : ∀ z n v : Bool, flagSetIf v maskV (flagSetIf n maskN (flagSetIf z maskZ 0#8)) =
      pseudoFlags z n False v := by decide
  rw [cmpFlags, horder]
  exact pseudoFlags_congr decide_eq_true_iff decide_eq_true_iff Iff.rfl (by simp)

/-- FLAGS after LOAD: bits 2 to 7 kept, Z and N put (R87, D3). -/
theorem loadFlagsOverwrite_eq_ofNat (v flags : Byte) : loadFlagsOverwrite v flags =
    BitVec.ofNat 8 (flags.toNat / 4 * 4 + (if v.toNat = 0 then 1 else 0) + (if 128 ≤ v.toNat then 2 else 0)) := by
  have hput : ∀ (z n : Bool) (flags : Byte), flagPut n maskN (flagPut z maskZ flags) =
      BitVec.ofNat 8 (flags.toNat / 4 * 4 + (if z then 1 else 0) + (if n then 2 else 0)) := by decide
  rw [loadFlagsOverwrite, hput, isZero_eq, bit7_eq]
  simp only [decide_eq_true_iff]

/-! ## The lines of the pseudocode, each on the state after the fetch -/

theorem pseudoOperand_eq (s : State) : pseudoOperand s = operandToMar (memRead s.mem s.pc) s := by
  rw [pseudoOperand, pseudoMod256_succ, operandToMar_eq]

theorem pseudoData_pseudoOperand (s : State) :
    pseudoData (pseudoOperand s) = readOperand (memRead s.mem s.pc) s := by
  rw [pseudoOperand_eq]
  rfl

theorem pseudoLoad_eq (s : State) : pseudoLoad s = loadUnder .overwrite (memRead s.mem s.pc) s := by
  rw [pseudoLoad, pseudoData_pseudoOperand, loadUnder_eq, loadFlags, loadFlagsOverwrite_eq_ofNat]
  rfl

theorem pseudoStore_eq (s : State) : pseudoStore s = storeUnder .unchanged (memRead s.mem s.pc) s := by
  rw [pseudoStore, pseudoOperand_eq]
  rfl

theorem pseudoAdd_eq (s : State) : pseudoAdd s = arith aluAdd (memRead s.mem s.pc) s := by
  rw [pseudoAdd, pseudoData_pseudoOperand, arith_eq,
    arithFlags_eq_pseudoFlags _ decide_eq_true_iff (aluAdd_overflow_iff _ _)]
  simp only [pseudoMod256_eq]
  rfl

theorem pseudoSub_eq (s : State) : pseudoSub s = arith aluSub (memRead s.mem s.pc) s := by
  rw [pseudoSub, pseudoData_pseudoOperand, arith_eq,
    arithFlags_eq_pseudoFlags _ decide_eq_true_iff (aluSub_overflow_iff _ _)]
  simp only [pseudoMod256_eq]
  rfl

theorem pseudoCmp_eq (s : State) : pseudoCmp s = cmpLeaves (memRead s.mem s.pc) s := by
  rw [pseudoCmp, pseudoData_pseudoOperand, cmpLeaves, cmpFlags_eq_pseudoFlags]
  rfl

/-- A jump of the pseudocode is the model's for any test that decides the same condition (R97). -/
theorem pseudoJump_eq {taken : Prop} [Decidable taken] {b : Bool} (h : b = true ↔ taken) (s : State) :
    pseudoJump taken s = jumpIf b (memRead s.mem s.pc) s := by
  rw [jumpIf_eq, pseudoJump, pseudoMod256_succ]
  by_cases ht : taken
  · rw [if_pos ht, if_pos (h.mpr ht)]
  · rw [if_neg ht, if_neg (mt h.mp ht)]

/-! ## The conditions of the jumps (R98 to R106) -/

theorem isZero_iff (v : Byte) : isZero v = true ↔ v.toNat = 0 := by rw [isZero_eq, decide_eq_true_iff]

theorem condLt_iff (s : State) : condLt s.flags = true ↔ pseudoN s := by
  have h : ∀ flags : Byte, condLt flags = true ↔ flags.toNat / 2 % 2 = 1 := by decide
  exact h s.flags

theorem condEq_iff (s : State) : condEq s.flags = true ↔ pseudoZ s := by
  have h : ∀ flags : Byte, condEq flags = true ↔ flags.toNat % 2 = 1 := by decide
  exact h s.flags

theorem condGe_iff (s : State) : condGe s.flags = true ↔ ¬ pseudoN s := by
  rw [← condLt_iff, condGe, condLt, Bool.not_eq_true', Bool.not_eq_true]

theorem condNe_iff (s : State) : condNe s.flags = true ↔ ¬ pseudoZ s := by
  rw [← condEq_iff, condNe, condEq, Bool.not_eq_true', Bool.not_eq_true]

theorem condGt_iff (s : State) : condGt s.flags = true ↔ ¬ pseudoN s ∧ ¬ pseudoZ s :=
  Bool.and_eq_true_iff.trans (and_congr (condGe_iff s) (condNe_iff s))

theorem condLe_iff (s : State) : condLe s.flags = true ↔ pseudoN s ∨ pseudoZ s :=
  Bool.or_eq_true_iff.trans (or_congr (condLt_iff s) (condEq_iff s))

/-- Settles O8: the pseudocode's fetch is the model's, and then, opcode byte by opcode byte, its line is what the step
left. -/
theorem stepIsTheSpecsPseudocode : Obligations.StepIsTheSpecsPseudocode := by
  intro s hrun
  obtain ⟨t, ht⟩ := step_next hrun
  rw [ht]
  congr 1
  simp only [pseudoStep, pseudoMod256_succ, ← fetch_eq]
  rcases (step_inversion ht).2 with ⟨e, rfl⟩ | ⟨e, rfl⟩ | ⟨e, rfl⟩ | ⟨e, rfl⟩ | ⟨e, rfl⟩ | ⟨e, rfl⟩ | ⟨e, rfl⟩ | ⟨e, rfl⟩ |
    ⟨e, rfl⟩ | ⟨e, rfl⟩ | ⟨e, rfl⟩ | ⟨e, rfl⟩ | ⟨e, rfl⟩ | ⟨e, rfl⟩ | ⟨e, rfl⟩
  · rw [e]; exact (pseudoLoad_eq _).symm
  · rw [e]; exact (pseudoStore_eq _).symm
  · rw [e]; exact (pseudoAdd_eq _).symm
  · rw [e]; exact (pseudoSub_eq _).symm
  · rw [e]; exact (pseudoJump_eq (iff_true_intro rfl) _).symm
  · rw [e]; exact (pseudoJump_eq (isZero_iff _) _).symm
  · simp [e, setRun, fetch_eq]
  · rw [e]; exact (pseudoCmp_eq _).symm
  · rw [e]; exact (pseudoJump_eq (condLt_iff _) _).symm
  · rw [e]; exact (pseudoJump_eq (condGt_iff _) _).symm
  · rw [e]; exact (pseudoJump_eq (condLe_iff _) _).symm
  · rw [e]; exact (pseudoJump_eq (condGe_iff _) _).symm
  · rw [e]; exact (pseudoJump_eq (condEq_iff _) _).symm
  · rw [e]; exact (pseudoJump_eq (condNe_iff _) _).symm
  · have hne : ∀ n, 1 ≤ n → n ≤ 14 → (memRead s.mem s.pc).toNat ≠ n := by omega
    simp [hne, takeUnknownOpcode, setRun, fetch_eq]

end Sys2Proof.Machine
end

section
/-! PROOFS. LOAD and STORE (R87, R88): the opcode byte that runs each, and what each leaves. -/

namespace Sys2Proof.Machine

open Sys2Proof.Claims

/-- An opcode byte that decodes with any operand runs its instruction (R81, R82). -/
theorem runsAs_of_decode {op : Byte} {mk : Byte → Instr} (h : ∀ a, decode [op, a] = .ok (mk a, [])) :
    RunsAs op mk := by
  intro s hrun hop
  rw [step_running hrun hop, h]

/-- LOAD keeps bits 2 to 7 of FLAGS under either value of P_LOAD_ZN (R87). -/
theorem loadFlags_getLsbD_of_two_le (p : Config.LoadZn) (v flags : Byte) {k : Nat} (hk : 2 ≤ k) :
    (loadFlags p v flags).getLsbD k = flags.getLsbD k := by
  cases p with
  | overwrite => exact loadFlagsOverwrite_getLsbD_of_two_le v flags hk
  | orIn =>
    rw [loadFlags, loadFlagsOrIn_getLsbD, decide_eq_false (show k ≠ 0 by omega), decide_eq_false (show k ≠ 1 by omega)]
    simp

/-- ZERO after LOAD: the loaded byte's, and under or_in also the old one (R87). -/
theorem loadFlags_zero_iff (p : Config.LoadZn) (v flags : Byte) :
    (loadFlags p v flags).getLsbD 0 = true ↔ v = 0x00#8 ∨ (p = .orIn ∧ flags.getLsbD 0 = true) := by
  cases p with
  | overwrite => rw [loadFlags, loadFlagsOverwrite_getLsbD]; simp [isZero]
  | orIn => rw [loadFlags, loadFlagsOrIn_getLsbD]; simp [isZero, or_comm]

/-- NEGATIVE after LOAD: the loaded byte's, and under or_in also the old one (R87). -/
theorem loadFlags_negative_iff (p : Config.LoadZn) (v flags : Byte) :
    (loadFlags p v flags).getLsbD 1 = true ↔ v.getLsbD 7 = true ∨ (p = .orIn ∧ flags.getLsbD 1 = true) := by
  cases p with
  | overwrite => rw [loadFlags, loadFlagsOverwrite_getLsbD]; simp [bit7]
  | orIn => rw [loadFlags, loadFlagsOrIn_getLsbD]; simp [bit7, or_comm]

/-- Settles O47: the registers are LOAD's record update, and FLAGS goes bit by bit. -/
theorem loadUnderEitherReading : Obligations.LoadUnderEitherReading := by
  intro p addr s t
  rw [show t = _ from loadUnder_eq p addr s]
  exact ⟨rfl, rfl, rfl, rfl, rfl, rfl, rfl, fun _ => loadFlags_getLsbD_of_two_le p _ s.flags,
    loadFlags_zero_iff p _ s.flags, loadFlags_negative_iff p _ s.flags⟩

/-- Settles O9: LOAD is the overwrite reading (D3), where Z and N are the loaded byte's alone. -/
theorem loadResult : Obligations.LoadResult := by
  refine ⟨runsAs_of_decode fun _ => rfl, fun addr s => ⟨loadUnder .overwrite addr s, rfl, ?_⟩⟩
  obtain ⟨hacc, hmbr, hmar, hpc, hir, hrun, hmem, hkept, -, -⟩ := loadUnderEitherReading .overwrite addr s
  have hzero : Z (loadUnder .overwrite addr s) = decide ((memRead s.mem addr).toNat = 0) :=
    (loadFlagsOverwrite_getLsbD (memRead s.mem addr) s.flags 0).trans (isZero_eq _)
  have hnegative : N (loadUnder .overwrite addr s) = decide (128 ≤ (memRead s.mem addr).toNat) :=
    (loadFlagsOverwrite_getLsbD (memRead s.mem addr) s.flags 1).trans (bit7_eq _)
  exact ⟨hmar, hpc, hmbr, hacc, hzero, hnegative, hkept, hir, hrun, fun a => by rw [hmem]⟩

/-- Settles O10: STORE's one memory write is at the operand's address, and MBR is kept (D4). -/
theorem storeResult : Obligations.StoreResult := by
  refine ⟨runsAs_of_decode fun _ => rfl, fun addr s hwf => ⟨storeUnder .unchanged addr s, rfl, ?_⟩⟩
  rw [storeUnder_eq]
  exact ⟨memRead_memWrite_same hwf addr s.acc, fun _ => memRead_memWrite_of_ne s.mem s.acc,
    rfl, rfl, rfl, rfl, rfl, rfl, rfl⟩

end Sys2Proof.Machine
end

section
/-! PROOFS. The ALU (R89, R90, R96): its carry, overflow and result on bytes, against the spec's formulas on unbounded
integers, the sign bits, and the library's signed overflow. -/

namespace Sys2Proof.Machine

theorem aluAdd_result_toNat (x y : Byte) : (aluAdd x y).result.toNat = (x.toNat + y.toNat) % 256 := by
  rw [aluAdd_result, BitVec.toNat_add]

theorem aluAdd_carry (x y : Byte) : (aluAdd x y).carry = decide (x.toNat + y.toNat > 255) :=
  decide_eq_decide.mpr (show (x.toNat : Int) + y.toNat > 255 ↔ x.toNat + y.toNat > 255 by omega)

theorem aluSub_carry (x y : Byte) : (aluSub x y).carry = decide (x.toNat < y.toNat) :=
  decide_eq_decide.mpr (sub_neg.trans Nat.cast_lt)

/-- Two sign bits that both differ from a third are equal: what R89's formula computes. -/
theorem aluAdd_overflow_eq_signs (x y : Byte) : (aluAdd x y).overflow =
    decide (x.getLsbD 7 = y.getLsbD 7 ∧ (aluAdd x y).result.getLsbD 7 ≠ x.getLsbD 7) := by
  have hbits : ∀ a b r : Bool, ((a ^^ r) && (b ^^ r)) = decide (a = b ∧ r ≠ a) := by decide
  rw [← hbits, ← BitVec.getLsbD_xor, ← BitVec.getLsbD_xor, ← BitVec.getLsbD_and, ← and_0x80_ne_zero]
  rfl

/-- The operands' sign bits differ, and so do those of the minuend and the result: what R90's formula computes (D22). -/
theorem aluSub_overflow_eq_signs (x y : Byte) : (aluSub x y).overflow =
    decide (x.getLsbD 7 ≠ y.getLsbD 7 ∧ (aluSub x y).result.getLsbD 7 ≠ x.getLsbD 7) := by
  have hbits : ∀ a b r : Bool, ((a ^^ b) && (a ^^ r)) = decide (a ≠ b ∧ r ≠ a) := by decide
  rw [← hbits, ← BitVec.getLsbD_xor, ← BitVec.getLsbD_xor, ← BitVec.getLsbD_and, ← and_0x80_ne_zero]
  rfl

/-- Settles O18: `mod256` is reduction mod 256, and bit 7 of the integers is the bytes' sign bit. -/
theorem aluAddFollowsTheFormula : Obligations.AluAddFollowsTheFormula := fun x y =>
  ⟨rfl, Bool.eq_iff_iff.mpr ((aluAdd_overflow_iff x y).trans decide_eq_true_iff.symm), mod256_toNat _,
    by rw [aluAdd_overflow_eq_signs, decide_eq_true_iff]⟩

/-- Settles O19: as for ADD, with the difference in two's complement (D22). -/
theorem aluSubFollowsTheFormula : Obligations.AluSubFollowsTheFormula := fun x y =>
  ⟨rfl, Bool.eq_iff_iff.mpr ((aluSub_overflow_iff x y).trans decide_eq_true_iff.symm), mod256_toNat _,
    by rw [aluSub_overflow_eq_signs, decide_eq_true_iff], by rw [aluSub_carry, decide_eq_true_iff]⟩

/-! ## Unsigned and signed reading of one result (R96) -/

theorem aluAdd_result_with_carry (x y : Byte) :
    (aluAdd x y).result.toNat + (if (aluAdd x y).carry then 256 else 0) = x.toNat + y.toNat := by
  rw [aluAdd_result_toNat, aluAdd_carry]
  simp only [decide_eq_true_iff]
  split <;> omega

theorem aluSub_result_with_borrow (x y : Byte) :
    ((aluSub x y).result.toNat : Int) - (if (aluSub x y).carry then 256 else 0) = (x.toNat : Int) - y.toNat := by
  have hresult : ((aluSub x y).result.toNat : Int) = ((x.toNat : Int) - y.toNat) % 256 := mod256_toNat _
  rw [hresult, aluSub_carry]
  simp only [decide_eq_true_iff]
  split <;> omega

/-- V after ADD is the library's signed overflow. -/
theorem aluAdd_overflow_eq_saddOverflow (x y : Byte) : (aluAdd x y).overflow = x.saddOverflow y := by
  have hbits : ∀ a b r : Bool, decide (a = b ∧ r ≠ a) = (a == b && !r == a) := by decide
  rw [aluAdd_overflow_eq_signs, aluAdd_result, BitVec.saddOverflow_eq, hbits]
  simp only [BitVec.msb_eq_getLsbD_last]

/-- V after SUB is the library's signed overflow (D22). -/
theorem aluSub_overflow_eq_ssubOverflow (x y : Byte) : (aluSub x y).overflow = x.ssubOverflow y := by
  have hbits : ∀ a b r : Bool, decide (a ≠ b ∧ r ≠ a) = (!a && b && r || a && !b && !r) := by decide
  rw [aluSub_overflow_eq_signs, aluSub_result, BitVec.ssubOverflow_eq, hbits]
  simp only [BitVec.msb_eq_getLsbD_last]

theorem saddOverflow_iff (x y : Byte) :
    x.saddOverflow y = true ↔ x.toInt + y.toInt < -128 ∨ x.toInt + y.toInt > 127 := by
  rw [BitVec.saddOverflow, Bool.or_eq_true, decide_eq_true_iff, decide_eq_true_iff]
  omega

theorem ssubOverflow_iff (x y : Byte) :
    x.ssubOverflow y = true ↔ x.toInt - y.toInt < -128 ∨ x.toInt - y.toInt > 127 := by
  rw [BitVec.ssubOverflow, Bool.or_eq_true, decide_eq_true_iff, decide_eq_true_iff]
  omega

end Sys2Proof.Machine
end

section
/-! PROOFS. ADD, SUB and CMP (R93 to R96): FLAGS flag by flag, and what each instruction leaves. -/

namespace Sys2Proof.Machine

open Sys2Proof.Claims

/-! ## The four flags after ADD and SUB, from what the ALU answers -/

section
variable (alu : Byte → Byte → AluResult) (addr : Byte) (s : State)

theorem arith_zero : Z (arith alu addr s) = decide ((arith alu addr s).acc.toNat = 0) := by
  rw [arith_eq, ← isZero_eq, Z, arithFlags_getLsbD]; simp

theorem arith_negative : N (arith alu addr s) = (arith alu addr s).acc.getLsbD 7 := by
  rw [arith_eq, ← bit7, N, arithFlags_getLsbD]; simp

theorem arith_carry : C (arith alu addr s) = (alu s.acc (memRead s.mem addr)).carry := by
  rw [arith_eq, C, arithFlags_getLsbD]; simp

theorem arith_overflow : V (arith alu addr s) = (alu s.acc (memRead s.mem addr)).overflow := by
  rw [arith_eq, V, arithFlags_getLsbD]; simp

end

/-! ## The four flags after CMP, from the exact difference (R91, R95) -/

theorem cmpFlags_zero (x y : Byte) : (cmpFlags x y).getLsbD 0 = decide (x = y) := by
  have h : intOf x - intOf y = 0 ↔ x = y := sub_eq_zero.trans (Nat.cast_inj.trans BitVec.toNat_inj)
  rw [cmpFlags_getLsbD]
  simp [h]

theorem cmpFlags_negative (x y : Byte) : (cmpFlags x y).getLsbD 1 = decide (x.toNat < y.toNat) := by
  have h : intOf x - intOf y < 0 ↔ x.toNat < y.toNat := sub_neg.trans Nat.cast_lt
  rw [cmpFlags_getLsbD]
  simp [h]

theorem cmpFlags_carry (x y : Byte) : (cmpFlags x y).getLsbD 2 = false := cmpFlags_getLsbD x y 2

theorem cmpFlags_overflow (x y : Byte) :
    (cmpFlags x y).getLsbD 3 = decide (intOf x - intOf y < -128 ∨ intOf x - intOf y > 127) := by
  rw [cmpFlags_getLsbD, Bool.decide_or]; rfl

/-! ## What each instruction leaves -/

/-- A FLAGS byte whose bits 4 to 7 are 0 has no bit from 4 up (R25). -/
theorem getLsbD_of_high_zero {flags : Byte} (h : flags &&& 0xF0 = 0#8) {k : Nat} (hk : 4 ≤ k) :
    flags.getLsbD k = false := by
  rcases Nat.lt_or_ge k 8 with hlt | hge
  · exact (flagsHigh_eq_zero_iff flags).mp h k hlt hk
  · exact BitVec.getLsbD_of_ge flags k hge

/-- Settles O11: ADD is one record update, its flags are the ALU's, and V is read off the sign bits. -/
theorem addResult : Obligations.AddResult := by
  refine ⟨runsAs_of_decode fun _ => rfl, fun addr s => ⟨arith aluAdd addr s, rfl, rfl, rfl, rfl, ?_⟩⟩
  exact ⟨aluAdd_result_toNat _ _, arith_zero .., arith_negative .., (arith_carry ..).trans (aluAdd_carry _ _),
    (arith_overflow ..).trans (aluAdd_overflow_eq_signs _ _),
    fun _ => getLsbD_of_high_zero (arithFlags_high_zero _), rfl, rfl, fun _ => rfl⟩

/-- Settles O12: as for ADD; C is the borrow and V rests on D22. -/
theorem subResult : Obligations.SubResult := by
  refine ⟨runsAs_of_decode fun _ => rfl, fun addr s => ⟨arith aluSub addr s, rfl, rfl, rfl, rfl, ?_⟩⟩
  exact ⟨mod256_toNat _, arith_zero .., arith_negative .., (arith_carry ..).trans (aluSub_carry _ _),
    (arith_overflow ..).trans (aluSub_overflow_eq_signs _ _),
    fun _ => getLsbD_of_high_zero (arithFlags_high_zero _), rfl, rfl, fun _ => rfl⟩

/-- Settles O13: CMP writes FLAGS from the exact difference, and beside FLAGS only what the operand read writes. -/
theorem cmpResult : Obligations.CmpResult := by
  refine ⟨runsAs_of_decode fun _ => rfl, fun addr s => ⟨cmpLeaves addr s, rfl, rfl, rfl, rfl, rfl, ?_⟩⟩
  exact ⟨cmpFlags_zero .., cmpFlags_negative .., cmpFlags_carry .., cmpFlags_overflow ..,
    fun _ => getLsbD_of_high_zero (cmpFlags_high_zero ..), rfl, rfl, fun _ => rfl⟩

/-! ## One ADD and one SUB for unsigned and signed operands (R96) -/

/-- Settles O20: C restores the unsigned sum; V is the signed overflow, without which the wrapped sum is exact. -/
theorem addServesUnsignedAndSigned : Obligations.AddServesUnsignedAndSigned := by
  refine fun addr s => ⟨arith aluAdd addr s, rfl, ?_⟩
  rw [arith_carry, arith_overflow, aluAdd_overflow_eq_saddOverflow]
  refine ⟨aluAdd_result_with_carry _ _, saddOverflow_iff _ _, fun hv => ?_⟩
  calc (aluAdd s.acc (memRead s.mem addr)).result.toInt
      = (s.acc + memRead s.mem addr).toInt := by rw [aluAdd_result]
    _ = s.acc.toInt + (memRead s.mem addr).toInt :=
        BitVec.toInt_add_of_not_saddOverflow (Bool.eq_false_iff.mp hv)

/-- Settles O21: as for ADD, with the borrow subtracted; V rests on D22. -/
theorem subServesUnsignedAndSigned : Obligations.SubServesUnsignedAndSigned := by
  refine fun addr s => ⟨arith aluSub addr s, rfl, ?_⟩
  rw [arith_carry, arith_overflow, aluSub_overflow_eq_ssubOverflow]
  refine ⟨aluSub_result_with_borrow _ _, ssubOverflow_iff _ _, fun hv => ?_⟩
  calc (aluSub s.acc (memRead s.mem addr)).result.toInt
      = (s.acc - memRead s.mem addr).toInt := by rw [aluSub_result]
    _ = s.acc.toInt - (memRead s.mem addr).toInt :=
        BitVec.toInt_sub_of_not_ssubOverflow (Bool.eq_false_iff.mp hv)

end Sys2Proof.Machine
end

section
/-! PROOFS. The eight jumps (R97 to R106): when each is taken, the order that they decide after CMP, and the jump to its own
address. -/

namespace Sys2Proof.Machine

open Sys2Proof.Claims

/-! ## Each jump, from its condition -/

/-- A jump with any test that decides `c` (R97). -/
theorem jumpIf_eq_of_iff {taken : Bool} {c : Prop} [Decidable c] (h : taken = true ↔ c) (addr : Byte) (s : State) :
    jumpIf taken addr s = { s with pc := if c then addr else s.pc + 1#8 } := by
  rw [jumpIf_eq]
  simp only [h]

/-- An instruction whose execution phase is `jumpIf` on a test of the state jumps exactly when that test says, and its frame
is that of `jumpIf` (R97). -/
theorem jumpsIff_of_exec {mk : Byte → Instr} {test : State → Bool} {taken : State → Prop}
    (hexec : ∀ addr s, exec (mk addr) s = .next (jumpIf (test s) addr s)) (htest : ∀ s, test s = true ↔ taken s) :
    JumpsIff mk taken := by
  refine fun addr s => ⟨jumpIf (test s) addr s, hexec addr s, fun h => ?_, fun h => ?_, jumpIf_acc .., jumpIf_ir ..,
    jumpIf_mar .., jumpIf_mbr .., jumpIf_flags .., jumpIf_run .., fun a => by rw [jumpIf_mem]⟩
  · rw [jumpIf_pc, if_pos ((htest s).mpr h)]
  · rw [jumpIf_pc, if_neg (mt (htest s).mp h)]

/-- Settles O14: JUMP's test is constantly true. -/
theorem jumpResult : Obligations.JumpResult :=
  ⟨runsAs_of_decode fun _ => rfl, jumpsIff_of_exec (test := fun _ => true) (fun _ _ => rfl)
    fun _ => iff_of_true rfl trivial⟩

/-- Settles O15: JZERO's test is that of ACC against 0. -/
theorem jzeroResult : Obligations.JzeroResult :=
  ⟨runsAs_of_decode fun _ => rfl, jumpsIff_of_exec (fun _ _ => rfl) fun s => isZero_iff s.acc⟩

/-- Settles O16: each test reads bits 0 and 1 of FLAGS as they stand (D11). -/
theorem flagJumpResults : Obligations.FlagJumpResults := by
  refine ⟨⟨runsAs_of_decode fun _ => rfl, jumpsIff_of_exec (fun _ _ => rfl) fun s => ?jlt⟩,
    ⟨runsAs_of_decode fun _ => rfl, jumpsIff_of_exec (fun _ _ => rfl) fun s => ?jgt⟩,
    ⟨runsAs_of_decode fun _ => rfl, jumpsIff_of_exec (fun _ _ => rfl) fun s => ?jle⟩,
    ⟨runsAs_of_decode fun _ => rfl, jumpsIff_of_exec (fun _ _ => rfl) fun s => ?jge⟩,
    ⟨runsAs_of_decode fun _ => rfl, jumpsIff_of_exec (fun _ _ => rfl) fun s => ?jeq⟩,
    ⟨runsAs_of_decode fun _ => rfl, jumpsIff_of_exec (fun _ _ => rfl) fun s => ?jne⟩⟩
  case jlt => rw [condLt_eq]
  case jgt => rw [condGt_eq, Bool.and_eq_true, Bool.not_eq_true', Bool.not_eq_true']
  case jle => rw [condLe_eq, Bool.or_eq_true]
  case jge => rw [condGe_eq, Bool.not_eq_true']
  case jeq => rw [condEq_eq]
  case jne => rw [condNe_eq, Bool.not_eq_true']

/-! ## The conditions after CMP: the unsigned order of its operands (R100) -/

section
variable (x y : Byte)

theorem condLt_cmpFlags : condLt (cmpFlags x y) = true ↔ x.toNat < y.toNat := by
  rw [condLt_eq, cmpFlags_negative, decide_eq_true_iff]

theorem condEq_cmpFlags : condEq (cmpFlags x y) = true ↔ x.toNat = y.toNat := by
  rw [condEq_eq, cmpFlags_zero, decide_eq_true_iff, BitVec.toNat_inj]

theorem condGe_cmpFlags : condGe (cmpFlags x y) = true ↔ x.toNat ≥ y.toNat := by
  rw [condGe, ← condLt, Bool.not_eq_true', ← Bool.not_eq_true, condLt_cmpFlags, Nat.not_lt]

theorem condNe_cmpFlags : condNe (cmpFlags x y) = true ↔ x.toNat ≠ y.toNat := by
  rw [condNe, ← condEq, Bool.not_eq_true', ← Bool.not_eq_true, condEq_cmpFlags]

theorem condGt_cmpFlags : condGt (cmpFlags x y) = true ↔ x.toNat > y.toNat := by
  rw [condGt, ← condGe, ← condNe, Bool.and_eq_true, condGe_cmpFlags, condNe_cmpFlags]
  omega

theorem condLe_cmpFlags : condLe (cmpFlags x y) = true ↔ x.toNat ≤ y.toNat := by
  rw [condLe, ← condLt, ← condEq, Bool.or_eq_true, condLt_cmpFlags, condEq_cmpFlags, Nat.le_iff_lt_or_eq]

end

/-- Settles O22: a jump on the state that CMP left tests CMP's flags (D11) and writes PC alone (D5). -/
theorem cmpThenJumpDecidesUnsignedOrder : Obligations.CmpThenJumpDecidesUnsignedOrder := by
  intro addr target s
  have jumps {taken : Bool} {c : Prop} [Decidable c] (h : taken = true ↔ c) := jumpIf_eq_of_iff h target (cmpLeaves addr s)
  exact ⟨cmpLeaves addr s, rfl, congrArg Host.Outcome.next (jumps (condLt_cmpFlags ..)),
    congrArg Host.Outcome.next (jumps (condGt_cmpFlags ..)), congrArg Host.Outcome.next (jumps (condLe_cmpFlags ..)),
    congrArg Host.Outcome.next (jumps (condGe_cmpFlags ..)), congrArg Host.Outcome.next (jumps (condEq_cmpFlags ..)),
    congrArg Host.Outcome.next (jumps (condNe_cmpFlags ..))⟩

/-! ## The endless loop (R98) -/

/-- The state after a step of JUMP to its own address: the fetched state with the PC back. -/
def afterSelfJump (s : State) : State := setPc s.pc (fetch s)

/-- The next step fetches the same bytes again and changes nothing more. -/
theorem afterSelfJump_idem (s : State) : afterSelfJump (afterSelfJump s) = afterSelfJump s := rfl

theorem step_selfJump {s : State} (hrun : s.run = .running) (hop : opAt s = 0x05#8) (hself : operandAt s = s.pc) :
    step s = .next (afterSelfJump s) := by
  rw [step_jump hrun hop, show memRead s.mem (s.pc + 1#8) = s.pc from hself, jumpIf_eq]
  rfl

/-- A state that the step answers again is where a run of any length ends. -/
theorem core_run_of_step_self {s : State} (h : step s = .next s) (k : Nat) : core.run k s = .next s := by
  induction k with
  | zero => rfl
  | succ k ih => rw [core_run_of_step h, ih]

/-- Settles O31: the first step leaves a fixed point of the step. -/
theorem jumpToItselfNeverEnds : Obligations.JumpToItselfNeverEnds := by
  intro s k hrun hop hself
  cases k with
  | zero => exact ⟨s, rfl, hrun, rfl, rfl, fun h => absurd h (Nat.lt_irrefl 0)⟩
  | succ k =>
    have hfirst : step s = .next (afterSelfJump s) := step_selfJump hrun hop hself
    have hfixed : step (afterSelfJump s) = .next (afterSelfJump s) := by
      rw [step_selfJump (s := afterSelfJump s) hrun hop hself, afterSelfJump_idem]
    exact ⟨afterSelfJump s, (core_run_of_step hfirst k).trans (core_run_of_step_self hfixed k), hrun, rfl, rfl,
      fun _ => ⟨rfl, hop, hop⟩⟩

end Sys2Proof.Machine
end

section
/-! PROOFS. HALT (R108): what its execution phase and its whole step leave, and that no step follows (R84). -/

namespace Sys2Proof.Machine

open Sys2Proof.Claims

theorem exec_halt (s : State) : exec .halt s = .next (setRun .halted s) := rfl

/-- Settles O17: HALT's execution phase is the one write of RUN, so its step leaves the fetch with RUN = Halted (D6), and the
refusal of a further step is that of any Halted engine. -/
theorem haltResult : Obligations.HaltResult := by
  refine ⟨fun s => ⟨setRun .halted s, exec_halt s, setRun_run .., setRun_acc .., setRun_pc .., setRun_ir .., setRun_mar ..,
    setRun_mbr .., setRun_flags .., fun _ => by rw [setRun_mem]⟩, fun s hrun hop => ?_⟩
  obtain ⟨hmar, hmbr, hir, hpc, hacc, hflags, -, hmem, -⟩ := fetchEffect s
  have hstep : step s = .next (setRun .halted (fetch s)) := step_halt hrun hop
  have hrefused : step (setRun .halted (fetch s)) = .refused .stepWhileHalted := step_halted (setRun_run ..)
  exact ⟨setRun .halted (fetch s), transact_step_of_step hstep, exec_halt _, setRun_run .., hpc, hmar, hir.trans hop,
    hmbr.trans hop, hacc, hflags, hmem, _, hrefused⟩

end Sys2Proof.Machine
end

section
/-! PROOFS. The way into Faulted and the way out of a stopped state: what a byte that is no opcode leaves (R109, R113), and
what the transactions other than RESET can do to a stopped engine (R84, R114, D6, D7). -/

namespace Sys2Proof.Machine

open Sys2Proof.Claims

/-! ## Transactions of a stopped engine -/

/-- A session that answers is its first transaction's answer and then a session of the others (R124). -/
theorem session_cons_eq_next {tr : Transaction} {trs : List Transaction} {s u : State} {replies : List Reply}
    (h : session (tr :: trs) s = .next (u, replies)) :
    ∃ t reply rest, transact tr s = .next (t, reply) ∧ session trs t = .next (u, rest) ∧ replies = reply :: rest := by
  rw [session] at h
  cases htr : transact tr s with
  | fault | refused => rw [htr] at h; cases h
  | next answer =>
    obtain ⟨t, reply⟩ := answer
    cases hrest : session trs t with
    | fault | refused => simp only [htr, hrest] at h; cases h
    | next =>
      simp only [htr, hrest] at h
      cases h
      exact ⟨t, reply, _, rfl, hrest, rfl⟩

/-- A stopped engine has no STEP (R84, R126), and the transactions other than RESET keep registers and RUN (R125, R127). -/
theorem transact_of_stopped {tr : Transaction} {s t : State} {reply : Reply} (hstopped : Stopped s)
    (hreset : Transaction.reset ≠ tr) (h : transact tr s = .next (t, reply)) :
    t = { s with mem := t.mem } ∧ Transaction.step ≠ tr := by
  cases tr with
  | reset => exact absurd rfl hreset
  | step => exact absurd (running_of_transact_step h) hstopped
  | loadImage | observe => cases h; exact ⟨rfl, nofun⟩

/-- Settles O51, by induction on the transactions: after each of them the engine is stopped as before. -/
theorem stoppedOnlyLeftByReset : Obligations.StoppedOnlyLeftByReset := by
  intro trs
  induction trs with
  | nil =>
    intro s u replies _ _ h
    cases h
    exact ⟨rfl, List.not_mem_nil⟩
  | cons tr trs ih =>
    intro s u replies hstopped hreset h
    obtain ⟨t, reply, rest, htr, hrest, -⟩ := session_cons_eq_next h
    obtain ⟨ht, hstep⟩ := transact_of_stopped hstopped (List.ne_of_not_mem_cons hreset) htr
    have htstopped : Stopped t := by rwa [Stopped, ht]
    obtain ⟨hu, hsteps⟩ := ih t u rest htstopped (List.not_mem_of_not_mem_cons hreset) hrest
    refine ⟨?_, List.not_mem_cons_of_ne_of_not_mem hstep hsteps⟩
    calc u = { t with mem := u.mem } := hu
      _ = { s with mem := u.mem } := by rw [ht]

/-! ## Taking UnknownOpcode -/

/-- A byte that is no opcode is 0x00 or 0x0F to 0xFF (R55). -/
theorem toNat_of_not_legal {op : Byte} (h : ¬ Legal op) : op.toNat = 0 ∨ 15 ≤ op.toNat := by
  rw [Legal] at h
  omega

/-- Settles O7: UnknownOpcode is taken on the fetched state and writes RUN alone, so the rest is what the fetch leaves. -/
theorem unknownOpcodeEntry : Obligations.UnknownOpcodeEntry := by
  intro s hrun hillegal
  obtain ⟨hmar, hmbr, hir, hpc, hacc, hflags, -, hmem, -⟩ := fetchEffect s
  have hstep : step s = .next (takeUnknownOpcode (fetch s)) := step_illegal hrun (toNat_of_not_legal hillegal)
  exact ⟨takeUnknownOpcode (fetch s), hstep, transact_step_of_step hstep, takeUnknownOpcode_run .., hmar, hmbr, hir, hpc,
    hacc, hflags, hmem⟩

end Sys2Proof.Machine
end

section
/-! PROOFS. The host's RESET, LOAD_IMAGE and OBSERVE, and the launch of an image (R122, R125, R127, R128). -/

namespace Sys2Proof.Machine

open Sys2Proof.Claims

/-- RUN is not part of the snapshot (R127). -/
theorem observe_setRun (r : RunState) (s : State) : observe (setRun r s) = observe s := rfl

/-- Settles O48: LOAD_IMAGE replaces memory by the canonical list of the image's cells, and no register and not RUN. -/
theorem loadImageEffect : Obligations.LoadImageEffect := by
  intro image s
  exact ⟨loadImage image s, rfl, memRead_loadImage image s, cellsOf_wf image, setMem_acc .., setMem_pc .., setMem_ir ..,
    setMem_mar .., setMem_mbr .., setMem_flags .., setMem_run ..⟩

/-- Settles O49: the snapshot's image reads as memory does, and `observe` reads no RUN. -/
theorem observeEffect : Obligations.ObserveEffect := by
  intro s
  have hrun : ∀ r, transact .observe (setRun r s) = .next (setRun r s, .snapshot (observe s)) := fun r => by
    rw [transact, observe_setRun]
  exact ⟨observe s, rfl, rfl, rfl, rfl, rfl, rfl, rfl, (imageOf s.mem).full, imageAt_imageOf s.mem, hrun⟩

/-- Settles O1: RESET answers `State.reset`, whatever the state before it. -/
theorem resetLeavesAllZeroRunning : Obligations.ResetLeavesAllZeroRunning := fun _ =>
  ⟨State.reset, rfl, State.reset_acc, State.reset_pc, State.reset_ir, State.reset_mar, State.reset_mbr, State.reset_flags,
    memRead_nil, State.reset_run, rfl⟩

/-- Settles O50: O48 at the reset state gives the launched engine its registers, RUN and memory, so its PC is 0, and the
IR after a step is the byte at PC. -/
theorem launchState : Obligations.LaunchState := by
  intro image s
  obtain ⟨t, ht, hread, -, hacc, hpc, hir, hmar, hmbr, hflags, hrun⟩ := loadImageEffect image State.reset
  have hlaunch : t = launch image s := by cases ht; rw [launch, resetEngine_eq]
  subst hlaunch
  refine ⟨rfl, hacc, hpc, hir, hmar, hmbr, hflags, hrun, hread, fun u hstep => ?_⟩
  calc u.ir = opAt (launch image s) := (stepShape_of_step hstep).2.ir_eq
    _ = memRead (launch image s).mem 0x00#8 := by rw [opAt, hpc, State.reset_pc]
    _ = imageAt image 0x00#8 := hread 0x00#8

end Sys2Proof.Machine
end
